-- ==== Sys2Proof/Word.lean ====
section
/-! DEFINITION. The unit of the wire: a byte, and the two-byte tile token (00_scope.md R13, 30_encoding.md R67). -/

namespace Sys2Proof

/-- A byte, `0x00`..`0xFF` (R13). -/
abbrev Byte := BitVec 8

/-- A tile token: two consecutive wire bytes, `t0` first on the wire (R67). Any two bytes are a token. -/
structure Token where
  t0 : Byte
  t1 : Byte
  deriving DecidableEq, Repr

end Sys2Proof
end

