-- ==== Sys2Proof/Config.lean ====
section
/-! DEFINITION. The configuration record (00_scope.md R10) and the name sets it is written in. What the fields mean and when a
record is well formed is in Machine/Tables.lean. -/

namespace Sys2Proof

/-- The protocol revision (R4). -/
inductive Rev where
  | single
  | multi
  deriving DecidableEq, Repr

/-- Which identity an unrecognised token gets (41_token_decoder.md R92). -/
inductive Fallback where
  | unknown
  | air
  deriving DecidableEq, Repr

/-- The three frame kinds (30_encoding.md R60). `NONE` of R21 is `none : Option FrameKind`. -/
inductive FrameKind where
  | screen
  | save
  | load
  deriving DecidableEq, Repr

/-- The ten tile identities and the fallback identity Unknown (R15, R68). -/
inductive TileId where
  | air
  | doodlerFacingUp
  | doodlerFacingDown
  | normalStep
  | brokenStep
  | springStep
  | monster
  | blackHole
  | dizzyDoodlerUp
  | bullet
  | unknown
  deriving DecidableEq, Repr

/-- One recognised token of `TILE_MAP` and the 4-bit TileId code it maps to. A code outside 0..9 can be written, and makes the
configuration ill formed (R90(c)). -/
structure TileEntry where
  token : Token
  code  : BitVec 4
  deriving DecidableEq, Repr

/-- The configuration record `cfg` (R10). `tileMap` holds the function `TILE_MAP` as the list of the tokens it recognises, in
rising order of the token (R95 allows any form; log entry 7); a token that is not listed is `NOMATCH`. -/
structure Config where
  rev       : Rev
  lenScreen : Nat
  lenSave   : Nat
  lenLoad   : Nat
  partOff   : Nat
  tileMap   : List TileEntry
  fallback  : Fallback
  deriving DecidableEq, Repr

end Sys2Proof
end

