-- ==== Sys2Proof/Machine/Tables.lean ====
section
/-! DEFINITION. The tables a configuration fixes: expected lengths (30_encoding.md R62, 10_state.md R26), kind markers (R60, R61),
the tile table's lookup (41_token_decoder.md R90), well-formedness (00_scope.md R11) and the default configurations (R10). -/

namespace Sys2Proof

/-- `LEN(k)`, the expected length of a frame of kind `k` (R26, R62). -/
def lenOf (cfg : Config) : FrameKind → Nat
  | .screen => cfg.lenScreen
  | .save   => cfg.lenSave
  | .load   => cfg.lenLoad

/-- `BUF_CAP` (R12). -/
def bufCap (cfg : Config) : Nat := max cfg.lenScreen (max cfg.lenSave cfg.lenLoad)

/-- `marker(k)`, the first byte of a frame of kind `k`: the ASCII digits `'0'`, `'1'`, `'2'` (R60). -/
def marker : FrameKind → Byte
  | .screen => 0x30#8
  | .save   => 0x31#8
  | .load   => 0x32#8

/-- `classify(b)` (R61); `none` is `INVALID`. -/
def classify (b : Byte) : Option FrameKind :=
  if b = 0x30#8 then some .screen
  else if b = 0x31#8 then some .save
  else if b = 0x32#8 then some .load
  else none

/-- The 2-bit code `acc_kind` is held in (R21). -/
def accKindCode : Option FrameKind → BitVec 2
  | some .screen => 0#2
  | some .save   => 1#2
  | some .load   => 2#2
  | none         => 3#2

/-- A token as a number, first byte most significant: the order the tile table is listed in (log entry 7). -/
def tokenKey (t : Token) : Nat := t.t0.toNat * 256 + t.t1.toNat

/-- `TILE_MAP(t)`: the listed code, or `none` for `NOMATCH` (R90). -/
def tileLookup : List TileEntry → Token → Option (BitVec 4)
  | [], _ => none
  | e :: r, t => if e.token = t then some e.code else tileLookup r t

/-- The token `"20"` (R13, R67). -/
def tokenAir : Token := ⟨0x32#8, 0x30#8⟩

/-- The token `"zz"` (R13, R67). -/
def tokenZz : Token := ⟨0x7A#8, 0x7A#8⟩

/-- The list form is canonical: tokens strictly rising, so that equal functions are equal lists (log entry 7). -/
abbrev TileMapCanonical (m : List TileEntry) : Prop :=
  m.Pairwise (fun x y => tokenKey x.token < tokenKey y.token)

/-- R90 (a), (b), (c): `"20"` is Air, `"zz"` is not recognised, every code is in 0..9. R90 (d), a function of the token alone,
holds of every list. -/
def tileMapOk (m : List TileEntry) : Bool :=
  decide (tileLookup m tokenAir = some 0#4) && decide (tileLookup m tokenZz = none) &&
    m.all (fun e => decide (e.code.toNat ≤ 9)) && decide (TileMapCanonical m)

/-- R11 (a) and (b): the screen length the revision fixes. -/
def screenLengthOk (cfg : Config) : Bool :=
  match cfg.rev with
  | .single => decide (cfg.lenScreen = 166)
  | .multi  => decide (cfg.lenScreen = cfg.partOff + 41) && decide (1 ≤ cfg.partOff)

/-- `wellformed(cfg)`: R11 (a) to (e). -/
def configOk (cfg : Config) : Bool :=
  screenLengthOk cfg && decide (1 ≤ cfg.lenSave) && decide (1 ≤ cfg.lenLoad) && tileMapOk cfg.tileMap &&
    decide (cfg.lenScreen ≤ 65535) && decide (cfg.lenSave ≤ 65535) && decide (cfg.lenLoad ≤ 65535)

/-- The least tile table R90 allows: `"20"` is Air and nothing else is recognised.
DESIGN CHOICE (log entry 4): R90 leaves the rest of the table OPEN. -/
def leastTileMap : List TileEntry := [⟨tokenAir, 0#4⟩]

/-- The configuration with every field but `REV` and `TILE_MAP` at its default (R10, R62). -/
def defaultConfig (rev : Rev) (tileMap : List TileEntry) : Config :=
  { rev := rev
    lenScreen := match rev with
      | .single => 166
      | .multi  => 42
    lenSave := 416
    lenLoad := 13
    partOff := 1
    tileMap := tileMap
    fallback := .unknown }

end Sys2Proof
end

