-- ==== Sys2Proof/Syntax.lean ====
section
/-! DEFINITION. The instructions: one constructor per row of spec/opcode_table.json, and the host operations as the host issues
them (30_encoding.md R58). -/

namespace Sys2Proof

/-- One constructor per row of the opcode table.

The three host operations carry the operand R58 gives them. A frame row is the chunk that is exactly that frame, delivered
while the Accumulator is IDLE (the table's "condition"), with the fields its layout names; FRAME_UNKNOWN is a chunk whose first
byte is no marker. Log entry 5. -/
inductive Instr where
  /-- RESET(cfg) (R140). -/
  | reset (cfg : Config)
  /-- DELIVER(c) (R81): a chunk that is no whole frame of its own. -/
  | deliver (chunk : List Byte)
  /-- STATUS() (R127). -/
  | status
  /-- A SINGLE screen frame (R63): 80 tokens, three score bytes, difficulty byte, lose byte. -/
  | frameScreen (tokens : List Token) (s0 s1 s2 difficulty lose : Byte)
  /-- A MULTI part frame (R64, R65): filler bytes, 20 tokens, index byte. -/
  | framePart (filler : List Byte) (tokens : List Token) (index : Byte)
  /-- A save frame (R66): the bytes after the marker. -/
  | frameSave (payload : List Byte)
  /-- A load request frame (R66): the bytes after the marker. -/
  | frameLoad (payload : List Byte)
  /-- A chunk whose first byte selects no kind (R60, R83). -/
  | frameUnknown (first : Byte) (rest : List Byte)
  deriving DecidableEq, Repr

/-- One host operation as it is issued (R58, R156). `DELIVER` and `STATUS` carry the configuration the host holds to be in
force, the parameter `cfg` of the step of R156; `RESET` carries the new one. Log entry 1. -/
inductive Request where
  | reset (cfg : Config)
  | deliver (cfg : Config) (chunk : List Byte)
  | status (cfg : Config)
  deriving DecidableEq, Repr

end Sys2Proof
end

