-- ==== Sys2Proof/Machine/State.lean ====
section
/-! DEFINITION. The state of the core (10_state.md R18 to R37), the reasons a step can stop, and the state after reset. -/

namespace Sys2Proof.Machine

/-- Why the model stops with a fault. None of these is one of the core's four errors, which are normal outputs (R137). -/
inductive Fault where
  /-- `step` finds no operation left: the run has ended (70_reset_and_hazards.md R155). Safe: the core itself only waits. -/
  | runEnded
  /-- A read of a buffer offset that holds no value (10_state.md R24), by `bufRead`. No rule reaches it. Safe. -/
  | bufferUnwritten
  /-- A write to an offset outside 0..BUF_CAP-1 (20_memory.md R38), by `bufWrite`. No rule reaches it. Safe. -/
  | bufferOutside
  /-- A read of the grid store while a cell holds no value (10_state.md R29), by `gridRead`. No rule reaches it. Safe. -/
  | gridUnwritten
  /-- A frame shorter than the layout its parser reads, by `parseScreen` or `dispatch`. No rule reaches it. Safe. -/
  | frameShort
  deriving DecidableEq, Repr

/-- Why the model gives a step no meaning (60_exceptions.md R137). -/
inductive Refusal where
  /-- An instruction without a meaning yet; no arm of `exec` answers it. Safe. -/
  | notModelled (mnemonic : String)
  /-- A DELIVER of an empty chunk (R82), by `fetch` and `deliver`. Safe. -/
  | emptyChunk
  /-- A RESET to an ill-formed configuration (R11, R140), by `execReset`, or an operation under one, by `withConfig` and
  `fetch`. Safe. -/
  | illFormedConfig
  /-- A DELIVER or STATUS issued under another configuration than the one the last RESET latched (R55), by `fetch`. Safe. -/
  | configChanged
  /-- A DELIVER or STATUS before the first RESET (R143), by `fetch` and `withConfig`. Safe. -/
  | beforeReset
  deriving DecidableEq, Repr

/-- The frame buffer: a list of (offset, byte), offsets strictly rising; an offset that is not listed holds no value (R24). -/
abbrev Memory := List Host.Cell

/-- The error register (10_state.md R33). -/
structure ErrReg where
  valid : Bool
  code  : BitVec 3
  a     : BitVec 16
  b     : BitVec 32
  deriving DecidableEq, Repr

/-- `err = NONE`: the flag clear and every other field 0 (R33). -/
def ErrReg.clear : ErrReg := { valid := false, code := 0#3, a := 0#16, b := 0#32 }

/-- An error event with its detail, exact (60_exceptions.md R119, R120). -/
inductive ErrorEvent where
  | unknownFrameKind (byte : Byte)
  | frameOverflow (expected actual : Nat)
  | outOfSequencePart (expected : Fin 4) (observed : Byte)
  | malformedNumericField (mask : BitVec 2)
  deriving DecidableEq, Repr

/-- The fields of a SCREEN_FRAME event (42_frame_parser.md R104). -/
structure ScreenEvent where
  grid            : List TileId
  score           : BitVec 10
  scoreValid      : Bool
  difficulty      : BitVec 4
  difficultyValid : Bool
  lose            : Bool
  deriving DecidableEq, Repr

/-- A frame event (60_exceptions.md R117). -/
inductive FrameEvent where
  | screenFrame (e : ScreenEvent)
  | gridFrame (grid : List TileId)
  | saveBlob (payload : List Byte)
  | loadRequest (payload : List Byte)
  deriving DecidableEq, Repr

/-- The output record of one operation (R117). -/
structure OutputRecord where
  frame : Option FrameEvent
  error : Option ErrorEvent
  deriving DecidableEq, Repr

/-- `{none, none}` (R117). -/
def OutputRecord.empty : OutputRecord := { frame := none, error := none }

/-- The state of the core (R18) with the latched configuration (R140), and the model's own interface fields: the record the last
operation returned, what STATUS returned, and the operations still to come (log entries 1 and 2). -/
structure State where
  /-- The configuration latched by the last RESET; `none` before the first one (R140, R143). -/
  cfg       : Option Config
  /-- `acc_kind`; `none` is `NONE` (R21). -/
  accKind   : Option FrameKind
  /-- `acc_len` (R23). -/
  accLen    : Nat
  /-- `acc_buf` (R24). -/
  accBuf    : Memory
  /-- `ra_next`, 2 bits (R28). -/
  raNext    : Fin 4
  /-- `ra_grid`, in arrival order (R29). -/
  raGrid    : List TileId
  /-- `err` (R32, R33). -/
  err       : ErrReg
  /-- The output record of the last operation (R117). Model's own. -/
  out       : OutputRecord
  /-- What the last operation returned beside its record, if it was STATUS (R127, R156). Model's own. -/
  statusRet : Option ErrReg
  /-- The operations the host has still to issue, oldest first (R155). Model's own. -/
  inputs    : List Request
  deriving DecidableEq, Repr

/-- The state right after `RESET(cfg)` returns (R37, R140), nothing more issued. -/
def State.afterReset (cfg : Config) : State :=
  { cfg := some cfg, accKind := none, accLen := 0, accBuf := [], raNext := 0, raGrid := [], err := ErrReg.clear,
    out := OutputRecord.empty, statusRet := none, inputs := [] }

/-- Before the first RESET (R143): no configuration, and so no operation but RESET has a meaning. -/
def State.unconstructed : State := { State.afterReset (defaultConfig .single []) with cfg := none }

/-- The machine right after reset, every field as R37 says. The configuration is the operand of RESET, which the spec leaves to
the host: REV = SINGLE and the least tile table are a DESIGN CHOICE (log entry 4). -/
def State.reset : State := State.afterReset (defaultConfig .single leastTileMap)

end Sys2Proof.Machine
end

