-- ==== Sys2Proof/Machine/Flags.lean ====
section
/-! DEFINITION. The error flag and its register fields (60_exceptions.md R119, R120, R125), and the strobes a host can derive
(R133). -/

namespace Sys2Proof.Machine

/-- The error code (R119); 0 is no error, 5..7 are never raised. -/
def errCode : ErrorEvent → BitVec 3
  | .unknownFrameKind _ => 1#3
  | .frameOverflow _ _ => 2#3
  | .outOfSequencePart _ _ => 3#3
  | .malformedNumericField _ => 4#3

/-- `ERR_A` (R120). The expected length fits 16 bits under a well-formed configuration (R11(e)). -/
def errA : ErrorEvent → BitVec 16
  | .unknownFrameKind b => b.setWidth 16
  | .frameOverflow expected _ => BitVec.ofNat 16 expected
  | .outOfSequencePart expected _ => BitVec.ofNat 16 expected.val
  | .malformedNumericField mask => mask.setWidth 16

/-- The largest value of `ERR_B` (R120). -/
def errBMax : Nat := 4294967295

/-- `ERR_B` (R120): the actual length saturates, it does not wrap. -/
def errB : ErrorEvent → BitVec 32
  | .unknownFrameKind _ => 0#32
  | .frameOverflow _ actual => BitVec.ofNat 32 (min actual errBMax)
  | .outOfSequencePart _ observed => observed.setWidth 32
  | .malformedNumericField _ => 0#32

/-- The register an error is recorded in (R125). -/
def errRegOf (e : ErrorEvent) : ErrReg :=
  { valid := true, code := errCode e, a := errA e, b := errB e }

/-- The field mask of MalformedNumericField: bit 0 score invalid, bit 1 difficulty invalid (R97, R103). -/
def fieldMask (scoreValid difficultyValid : Bool) : BitVec 2 :=
  (if scoreValid then 0#2 else 1#2) + (if difficultyValid then 0#2 else 2#2)

/-- The frame strobe a host may derive from an operation's record (R133). -/
def frameStrobe (s : State) : Bool := s.out.frame.isSome

/-- The error strobe a host may derive from an operation's record (R133). -/
def errorStrobe (s : State) : Bool := s.out.error.isSome

end Sys2Proof.Machine
end

