-- ==== Sys2Proof/WellFormed.lean ====
section
/-! DEFINITION. When an instruction is well formed under a configuration, and when its row of the opcode table applies. -/

namespace Sys2Proof

/-- The shape of each row's operands under `cfg`: field counts of R63 to R66, a revision that has the row, a non-empty chunk
(R82), a well-formed configuration (R11), a first byte that is no marker (R60). -/
def Instr.wellFormed (cfg : Config) : Instr → Bool
  | .reset c => configOk c
  | .deliver c => !c.isEmpty
  | .status => true
  | .frameScreen tokens _ _ _ _ _ => decide (cfg.rev = .single) && decide (tokens.length = 80)
  | .framePart filler tokens _ =>
      decide (cfg.rev = .multi) && decide (filler.length + 1 = cfg.partOff) && decide (tokens.length = 20)
  | .frameSave payload => decide (payload.length + 1 = cfg.lenSave)
  | .frameLoad payload => decide (payload.length + 1 = cfg.lenLoad)
  | .frameUnknown first _ => decide (classify first = none)

/-- A chunk that starts a frame without being exactly one: its first byte is a marker and its length is not the kind's. -/
def segmentOf (cfg : Config) : List Byte → Bool
  | [] => false
  | b :: rest =>
    match classify b with
    | none => false
    | some k => decide (rest.length + 1 ≠ lenOf cfg k)

/-- The table's "condition" column: a frame row applies to a chunk that arrives while `acc_kind = NONE` (`idle`), and DELIVER is
the row of every other chunk. -/
def Instr.applies (cfg : Config) (idle : Bool) : Instr → Bool
  | .reset _ => true
  | .deliver c => !idle || segmentOf cfg c
  | .status => true
  | .frameScreen _ _ _ _ _ _ => idle
  | .framePart _ _ _ => idle
  | .frameSave _ => idle
  | .frameLoad _ => idle
  | .frameUnknown _ _ => idle

end Sys2Proof
end

