-- ==== Sys2Proof/Decode.lean ====
section
/-! DEFINITION. The decoder: from a host operation and its chunk's bytes to an instruction (30_encoding.md R58 to R66), and after
it the encoder, from an instruction to the host operation that carries it. -/

namespace Sys2Proof

/-- Why the decoder gives no instruction. -/
inductive Reject where
  /-- The chunk is empty (40_accumulator.md R82). Safe: the spec gives it no meaning. -/
  | emptyChunk
  /-- The bytes do not fill the layout of the kind's frame: only an ill-formed configuration, whose lengths do not fit the
  layouts of R63 and R64, leads here. Safe: the spec gives such a configuration no meaning (R11). -/
  | layout
  deriving DecidableEq, Repr

/-- Consecutive bytes as tokens, first byte first (R67). A last odd byte belongs to no token. -/
def tokenPairs : List Byte → List Token
  | a :: b :: r => ⟨a, b⟩ :: tokenPairs r
  | _ => []

/-- The wire bytes of tokens, in order (R67). -/
def tokenBytes : List Token → List Byte
  | [] => []
  | t :: r => t.t0 :: t.t1 :: tokenBytes r

/-- The fields of a SINGLE screen frame, from the bytes after its marker (R63: offsets 1..160, 161..163, 164, 165). -/
def decodeScreen (body : List Byte) : Except Reject Instr :=
  match body.drop 160 with
  | [s0, s1, s2, d, l] => .ok (.frameScreen (tokenPairs (body.take 160)) s0 s1 s2 d l)
  | _ => .error .layout

/-- The fields of a MULTI part frame, from the bytes after its marker (R64: filler at 1..PART_OFF-1, R65: the part body). -/
def decodePart (cfg : Config) (body : List Byte) : Except Reject Instr :=
  let part := body.drop (cfg.partOff - 1)
  match part.drop 40 with
  | [x] => .ok (.framePart (body.take (cfg.partOff - 1)) (tokenPairs (part.take 40)) x)
  | _ => .error .layout

/-- The instruction a whole frame of kind `k` is, from the bytes after its marker (R62 to R66, R77). -/
def decodeFrame (cfg : Config) (k : FrameKind) (body : List Byte) : Except Reject Instr :=
  match k, cfg.rev with
  | .screen, .single => decodeScreen body
  | .screen, .multi => decodePart cfg body
  | .save, _ => .ok (.frameSave body)
  | .load, _ => .ok (.frameLoad body)

/-- The instruction a chunk is. The first byte is looked at only when the Accumulator is IDLE (R81, R84). -/
def decodeChunk (cfg : Config) (idle : Bool) (c : List Byte) : Except Reject Instr :=
  match c with
  | [] => .error .emptyChunk
  | b :: rest =>
    if idle then
      match classify b with
      | none => .ok (.frameUnknown b rest)
      | some k => if rest.length + 1 = lenOf cfg k then decodeFrame cfg k rest else .ok (.deliver c)
    else .ok (.deliver c)

/-- The instruction a host operation is (R58). -/
def decode (cfg : Config) (idle : Bool) : Request → Except Reject Instr
  | .reset c => .ok (.reset c)
  | .deliver _ c => decodeChunk cfg idle c
  | .status _ => .ok .status

/-- The wire bytes of an instruction; RESET and STATUS have none (R58). -/
def wireBytes : Instr → List Byte
  | .reset _ => []
  | .deliver c => c
  | .status => []
  | .frameScreen tokens s0 s1 s2 d l => marker .screen :: (tokenBytes tokens ++ [s0, s1, s2, d, l])
  | .framePart filler tokens x => marker .screen :: (filler ++ (tokenBytes tokens ++ [x]))
  | .frameSave payload => marker .save :: payload
  | .frameLoad payload => marker .load :: payload
  | .frameUnknown first rest => first :: rest

/-- The host operation that carries an instruction, issued under `cfg`. -/
def encode (cfg : Config) (i : Instr) : Request :=
  match i with
  | .reset c => .reset c
  | .status => .status cfg
  | .deliver _ => .deliver cfg (wireBytes i)
  | .frameScreen _ _ _ _ _ _ => .deliver cfg (wireBytes i)
  | .framePart _ _ _ => .deliver cfg (wireBytes i)
  | .frameSave _ => .deliver cfg (wireBytes i)
  | .frameLoad _ => .deliver cfg (wireBytes i)
  | .frameUnknown _ _ => .deliver cfg (wireBytes i)

/-- The bytes of a table word, least significant first (the first byte to arrive, R42). -/
def wordBytes (nbits w : Nat) : List Byte :=
  (List.range ((nbits + 7) / 8)).map (fun i => BitVec.ofNat 8 (w / 256 ^ i))

/-- The configuration a table word is read under. The table gives FRAME_SCREEN and FRAME_PART the same first byte and tells them
apart by `REV` and by their lengths: a word of 42 bytes that starts `0x30` is read under MULTI, every other under SINGLE.
DESIGN CHOICE (log entry 6). -/
def tableConfig (bs : List Byte) : Config :=
  if bs.length = 42 ∧ bs.head? = some 0x30#8 then defaultConfig .multi leastTileMap else defaultConfig .single leastTileMap

/-- The chunk a table word stands for: its bytes, and zero bytes up to the length of the kind the first byte selects. -/
def tableChunk (nbits w : Nat) : List Byte :=
  let bs := wordBytes nbits w
  match bs with
  | [] => []
  | b :: _ =>
    match classify b with
    | none => bs
    | some k => bs ++ List.replicate (lenOf (tableConfig bs) k - bs.length) 0#8

/-- The instruction the decoder reads from a word of the opcode table (log entry 6). -/
def decodeTableWord (nbits w : Nat) : Option Instr :=
  match decodeChunk (tableConfig (wordBytes nbits w)) true (tableChunk nbits w) with
  | .ok i => some i
  | .error _ => none

end Sys2Proof
end

