-- ==== Sys2Proof/Machine/Operands.lean ====
section
/-! DEFINITION. The operand forms inside a frame: tile codes (30_encoding.md R68), the Token Decoder (41_token_decoder.md R92 to
R94), decimal digits (R69 to R71), the lose byte (R72), the part index (R73), the grid's geometry (R74, R75). -/

namespace Sys2Proof.Machine

/-- The 4-bit code of a tile identity (R68). -/
def tileCode : TileId → BitVec 4
  | .air => 0#4
  | .doodlerFacingUp => 1#4
  | .doodlerFacingDown => 2#4
  | .normalStep => 3#4
  | .brokenStep => 4#4
  | .springStep => 5#4
  | .monster => 6#4
  | .blackHole => 7#4
  | .dizzyDoodlerUp => 8#4
  | .bullet => 9#4
  | .unknown => 15#4

/-- The named identity of a code in 0..9 (R68). The reserved codes 10..14, and 15, name none of the ten. -/
def tileOfCode (c : BitVec 4) : Option TileId :=
  match c.toNat with
  | 0 => some .air
  | 1 => some .doodlerFacingUp
  | 2 => some .doodlerFacingDown
  | 3 => some .normalStep
  | 4 => some .brokenStep
  | 5 => some .springStep
  | 6 => some .monster
  | 7 => some .blackHole
  | 8 => some .dizzyDoodlerUp
  | 9 => some .bullet
  | _ => none

/-- `FB`, the fallback identity (R92). -/
def fallbackTile (cfg : Config) : TileId :=
  match cfg.fallback with
  | .unknown => .unknown
  | .air => .air

/-- `TOK(t0, t1)` (R93): the table's identity, or the fallback. -/
def tok (cfg : Config) (t : Token) : TileId :=
  match tileLookup cfg.tileMap t with
  | none => fallbackTile cfg
  | some c => (tileOfCode c).getD (fallbackTile cfg)

/-- `TOKENS(b, n)` (R94): `n` tokens from the first `2n` bytes of `b`, in order. -/
def tokens (cfg : Config) (b : List Byte) (n : Nat) : List TileId :=
  (tokenPairs (b.take (2 * n))).map (tok cfg)

/-- A decimal digit (R69). -/
def isDigit (b : Byte) : Bool := decide (0x30 ≤ b.toNat) && decide (b.toNat ≤ 0x39)

/-- `digit(b)` (R69). -/
def digit (b : Byte) : Nat := b.toNat - 0x30

/-- `score_valid` (R70). -/
def scoreValid (s0 s1 s2 : Byte) : Bool := isDigit s0 && isDigit s1 && isDigit s2

/-- `score` (R70), most significant digit first (R43). 0 for an invalid field is the spec's own choice and is used by no
statement (log entry 12). -/
def scoreOf (s0 s1 s2 : Byte) : BitVec 10 :=
  if scoreValid s0 s1 s2 then BitVec.ofNat 10 (100 * digit s0 + 10 * digit s1 + digit s2) else 0#10

/-- `difficulty_valid` (R71). -/
def difficultyValid (d : Byte) : Bool := isDigit d

/-- `difficulty` (R71); 0 for an invalid field as for the score (log entry 12). -/
def difficultyOf (d : Byte) : BitVec 4 :=
  if difficultyValid d then BitVec.ofNat 4 (digit d) else 0#4

/-- `lose` (R72): exactly the byte `0x31`. -/
def loseOf (f : Byte) : Bool := decide (f = 0x31#8)

/-- The index byte of part `p` (R73). -/
def partIndexByte (p : Fin 4) : Byte := 0x30#8 + BitVec.ofNat 8 p.val

/-- The number of cells of a ScreenGrid (R74). -/
def gridCells : Nat := 80

/-- The row of grid cell `i`, in wire order (R74). -/
def gridRow (i : Nat) : Nat := i / 4

/-- The column of grid cell `i` (R74). -/
def gridCol (i : Nat) : Nat := i % 4

/-- The cell at row `r`, column `c` (R74). -/
def gridCell (r c : Nat) : Nat := 4 * r + c

/-- The grid cell of tile `j` of part `p` (R75). -/
def partCell (p : Fin 4) (j : Nat) : Nat := 20 * p.val + j

end Sys2Proof.Machine
end

