-- ==== Sys2Proof/Machine/Ops.lean ====
section
/-! DEFINITION. The shared operations: the frame buffer (10_state.md R24, 20_memory.md R38 to R40), raising an error and ending it
(60_exceptions.md R125, R130), emitting a frame (R117), and what every operation does first. -/

namespace Sys2Proof.Machine

/-- What an operation answers. -/
abbrev Result (α : Type) := Host.Outcome α Fault Refusal

/-- Go on with a value, or stop as the first part stopped. -/
def andThen {α β : Type} (r : Result α) (k : α → Result β) : Result β :=
  match r with
  | .next a => k a
  | .fault f => .fault f
  | .refused q => .refused q

/-! ### The frame buffer -/

/-- The canonical form: offsets strictly rising, so that equal memories are equal lists. No value is listed for an offset that
holds none. -/
abbrev Memory.wf (m : Memory) : Prop := m.Pairwise (fun x y => x.1 < y.1)

/-- The cells of consecutive bytes from offset `off` on. -/
def cellsFrom : Nat → List Byte → Memory
  | _, [] => []
  | off, b :: bs => (off, b) :: cellsFrom (off + 1) bs

/-- The byte at one offset, if the offset holds a value. -/
def Memory.readByte : Memory → Nat → Option Byte
  | [], _ => none
  | c :: r, a => if c.1 = a then some c.2 else Memory.readByte r a

/-- Write consecutive bytes from offset `off` on, keeping the canonical form. -/
def Memory.write (m : Memory) (off : Nat) (bs : List Byte) : Memory :=
  m.filter (fun c => decide (c.1 < off)) ++ (cellsFrom off bs ++ m.filter (fun c => decide (off + bs.length ≤ c.1)))

/-- The `n` bytes from offset `off` on, if every one of those offsets holds a value. -/
def Memory.readBytes (m : Memory) (off n : Nat) : Option (List Byte) :=
  let cs := m.filter (fun c => decide (off ≤ c.1) && decide (c.1 < off + n))
  if cs.map (·.1) = List.range' off n then some (cs.map (·.2)) else none

/-- One byte of `acc_buf` as the core can see it: an offset at or above `acc_len` holds no value (R24). -/
def bufByte (s : State) (a : Nat) : Option Byte :=
  if a < s.accLen then s.accBuf.readByte a else none

/-- `MemRead(off, n)` on `acc_buf` (R14, R24). -/
def bufRead (s : State) (off n : Nat) : Result (List Byte) :=
  if s.accLen < off + n then .fault .bufferUnwritten
  else match s.accBuf.readBytes off n with
    | some bs => .next bs
    | none => .fault .bufferUnwritten

/-- `MemWrite(off, |bs|, bs)` on `acc_buf` (R14, R38, R39). -/
def bufWrite (cfg : Config) (off : Nat) (bs : List Byte) (s : State) : Result State :=
  if bufCap cfg < off + bs.length then .fault .bufferOutside
  else .next { s with accBuf := s.accBuf.write off bs }

/-- The Accumulator back to IDLE: `acc_kind <- NONE ; acc_len <- 0`. No offset holds a value any more (R24). -/
def accClear (s : State) : State := { s with accKind := none, accLen := 0, accBuf := [] }

/-! ### The grid store -/

/-- The reassembly dropped: `ra_grid <- [] ; ra_next <- 0` (R111, R113). -/
def raClear (s : State) : State := { s with raNext := 0, raGrid := [] }

/-- The whole grid store, if all of its 80 cells hold a value (R29, R41). -/
def gridRead (s : State) : Result (List TileId) :=
  if s.raGrid.length = gridCells then .next s.raGrid else .fault .gridUnwritten

/-! ### Output record and error flag -/

/-- `out = {none, none}`: how every operation starts (R117). -/
def beginOp (s : State) : State := { s with out := OutputRecord.empty, statusRet := none }

/-- `emit F` (R117). -/
def emit (f : FrameEvent) (s : State) : State := { s with out := { s.out with frame := some f } }

/-- `raise E(info)` (R125): the core's one way to take an error. The record gets the exact event, `err` its register form, and
whatever `err` held is replaced. Nothing is saved and control stays with the host (R129). -/
def raise (e : ErrorEvent) (s : State) : State :=
  { s with out := { s.out with error := some e }, err := errRegOf e }

/-- The end of an error (R130): an accepted chunk clears the flag (R86). -/
def clearErr (s : State) : State := { s with err := ErrReg.clear }

/-- An operation other than RESET needs the configuration a RESET latched (R143), and a well-formed one (R11, R137). -/
def withConfig (s : State) (k : Config → Result State) : Result State :=
  match s.cfg with
  | none => .refused .beforeReset
  | some cfg => if configOk cfg then k cfg else .refused .illFormedConfig

end Sys2Proof.Machine
end

