-- ==== Sys2Proof/Machine/Reassembler.lean ====
section
/-! DEFINITION. The Part Reassembler (43_part_reassembler.md). -/

namespace Sys2Proof.Machine

/-- The steps R111 to R114 of one part, its index byte `x` and its 20 decoded tiles `g` taken out of the body. -/
def partStep (x : Byte) (g : List TileId) (s : State) : Result State :=
  if x ≠ partIndexByte s.raNext then
    .next (raClear (raise (.outOfSequencePart s.raNext x) s))
  else
    let s1 := { s with raGrid := s.raGrid ++ g }
    if s.raNext = 3 then
      andThen (gridRead s1) (fun grid => .next (raClear (emit (.gridFrame grid) s1)))
    else
      .next { s1 with raNext := s.raNext + 1 }

/-- `PART_RECEIVE(body)` (R109). -/
def partReceive (cfg : Config) (body : List Byte) (s : State) : Result State :=
  match body.drop 40 with
  | [x] => partStep x (tokens cfg body 20) s
  | _ => .fault .frameShort

end Sys2Proof.Machine
end

