-- ==== Sys2Proof/Machine/Parser.lean ====
section
/-! DEFINITION. The Frame Parser and the type dispatch (42_frame_parser.md). -/

namespace Sys2Proof.Machine

/-- The event a screen's fields decode to (R97 to R102, R104): under `lose` the grid is 80 Air cells whatever the tokens were. -/
def screenEvent (g : List TileId) (s0 s1 s2 d f : Byte) : ScreenEvent :=
  { grid := if loseOf f then List.replicate gridCells .air else g
    score := scoreOf s0 s1 s2
    scoreValid := scoreValid s0 s1 s2
    difficulty := difficultyOf d
    difficultyValid := difficultyValid d
    lose := loseOf f }

/-- The check of R103: raise MalformedNumericField if a numeric field is invalid. -/
def checkNumeric (s0 s1 s2 d : Byte) (s : State) : State :=
  if scoreValid s0 s1 s2 && difficultyValid d then s
  else raise (.malformedNumericField (fieldMask (scoreValid s0 s1 s2) (difficultyValid d))) s

/-- `PARSE_SCREEN(frame)` (R97). The event is emitted whether or not a field is malformed. -/
def parseScreen (cfg : Config) (frame : List Byte) (s : State) : Result State :=
  match frame.drop 161 with
  | [s0, s1, s2, d, f] =>
      .next (emit (.screenFrame (screenEvent (tokens cfg (frame.drop 1) 80) s0 s1 s2 d f)) (checkNumeric s0 s1 s2 d s))
  | _ => .fault .frameShort

/-- `PARSE_SAVE(frame)` (R105). -/
def parseSave (frame : List Byte) (s : State) : Result State :=
  .next (emit (.saveBlob (frame.drop 1)) s)

/-- `PARSE_LOAD(frame)` (R106). -/
def parseLoad (frame : List Byte) (s : State) : Result State :=
  .next (emit (.loadRequest (frame.drop 1)) s)

/-- `DISPATCH(kind, frame)` (R96): by kind and `REV`. -/
def dispatch (cfg : Config) (k : FrameKind) (frame : List Byte) (s : State) : Result State :=
  match k with
  | .screen =>
    match cfg.rev with
    | .single => parseScreen cfg frame s
    | .multi => partReceive cfg ((frame.drop cfg.partOff).take 41) s
  | .save => parseSave frame s
  | .load => parseLoad frame s

end Sys2Proof.Machine
end

