-- ==== Sys2Proof/Machine/Accumulator.lean ====
section
/-! DEFINITION. The Frame Accumulator: the whole of `DELIVER` (40_accumulator.md). -/

namespace Sys2Proof.Machine

/-- Rules R86 and R87 for a chunk whose bytes are in the buffer: the flag is cleared, and a frame of length `LEN(k)` is taken out
whole and dispatched. -/
def complete (cfg : Config) (k : FrameKind) (s : State) : Result State :=
  let s1 := clearErr s
  if s1.accLen = lenOf cfg k then
    andThen (bufRead s1 0 (lenOf cfg k)) (fun frame => dispatch cfg k frame (accClear s1))
  else .next s1

/-- Rules R84 and R85 for a chunk of a known kind: overflow drops it and the pending frame, otherwise it is appended. -/
def accept (cfg : Config) (k : FrameKind) (c : List Byte) (s : State) : Result State :=
  if lenOf cfg k < s.accLen + c.length then
    .next (accClear (raise (.frameOverflow (lenOf cfg k) (s.accLen + c.length)) s))
  else
    andThen (bufWrite cfg s.accLen c s)
      (fun s1 => complete cfg k { s1 with accKind := some k, accLen := s.accLen + c.length })

/-- The kind the chunk belongs to: the pending one, or in IDLE the one its first byte selects (R83, R84). -/
def kindFor (s : State) (b : Byte) : Option FrameKind :=
  match s.accKind with
  | some k => some k
  | none => classify b

/-- `DELIVER(c)` (R81). -/
def deliver (c : List Byte) (s : State) : Result State :=
  match c with
  | [] => .refused .emptyChunk
  | b :: _ =>
    withConfig s (fun cfg =>
      match kindFor s b with
      | none => .next (raise (.unknownFrameKind b) (beginOp s))
      | some k => accept cfg k c (beginOp s))

end Sys2Proof.Machine
end

