-- ==== Sys2Proof/Machine/Frames.lean ====
section
/-! DEFINITION. The frame rows of the opcode table. A frame row is a chunk, so its effect is that of delivering its wire bytes
(30_encoding.md R63 to R66; log entry 5): while IDLE the Accumulator takes the frame whole and the parser or the reassembler
handles it; in a state where the row does not apply (a pending frame, the other revision) the same bytes do what R84 to R87 say
of any chunk. -/

namespace Sys2Proof.Machine

/-- FRAME_SCREEN (R63, R97). -/
def execFrameScreen (tokens : List Token) (s0 s1 s2 d l : Byte) (s : State) : Host.Outcome State Fault Refusal :=
  deliver (wireBytes (.frameScreen tokens s0 s1 s2 d l)) s

/-- FRAME_PART (R64, R65, R109). -/
def execFramePart (filler : List Byte) (tokens : List Token) (x : Byte) (s : State) : Host.Outcome State Fault Refusal :=
  deliver (wireBytes (.framePart filler tokens x)) s

/-- FRAME_SAVE (R66, R105). -/
def execFrameSave (payload : List Byte) (s : State) : Host.Outcome State Fault Refusal :=
  deliver (wireBytes (.frameSave payload)) s

/-- FRAME_LOAD (R66, R106). -/
def execFrameLoad (payload : List Byte) (s : State) : Host.Outcome State Fault Refusal :=
  deliver (wireBytes (.frameLoad payload)) s

/-- FRAME_UNKNOWN (R83, R121). -/
def execFrameUnknown (first : Byte) (rest : List Byte) (s : State) : Host.Outcome State Fault Refusal :=
  deliver (wireBytes (.frameUnknown first rest)) s

end Sys2Proof.Machine
end

