-- ==== Sys2Proof/Machine/HostOps.lean ====
section
/-! DEFINITION. The three host operations (30_encoding.md R58). -/

namespace Sys2Proof.Machine

/-- RESET(cfg) (70_reset_and_hazards.md R140): every field to its reset value, whatever was pending; an ill-formed `cfg` is
refused (R137). -/
def execReset (cfg : Config) (s : State) : Host.Outcome State Fault Refusal :=
  if configOk cfg then
    .next { clearErr (raClear (accClear (beginOp s))) with cfg := some cfg }
  else .refused .illFormedConfig

/-- DELIVER(c) (R81). -/
def execDeliver (c : List Byte) (s : State) : Host.Outcome State Fault Refusal := deliver c s

/-- STATUS() (R127): the current `err` is returned, and nothing else changes. -/
def execStatus (s : State) : Host.Outcome State Fault Refusal :=
  withConfig s (fun _ => .next { beginOp s with statusRet := some s.err })

end Sys2Proof.Machine
end

