-- ==== Sys2Proof/Machine/Dispatch.lean ====
section
/-! DEFINITION. The one dispatch from an instruction to its meaning. -/

namespace Sys2Proof.Machine

def exec (i : Instr) (s : State) : Host.Outcome State Fault Refusal :=
  match i with
  | .reset cfg => Sys2Proof.Machine.execReset cfg s
  | .deliver chunk => Sys2Proof.Machine.execDeliver chunk s
  | .status => Sys2Proof.Machine.execStatus s
  | .frameScreen tokens s0 s1 s2 d l => Sys2Proof.Machine.execFrameScreen tokens s0 s1 s2 d l s
  | .framePart filler tokens x => Sys2Proof.Machine.execFramePart filler tokens x s
  | .frameSave payload => Sys2Proof.Machine.execFrameSave payload s
  | .frameLoad payload => Sys2Proof.Machine.execFrameLoad payload s
  | .frameUnknown first rest => Sys2Proof.Machine.execFrameUnknown first rest s

end Sys2Proof.Machine
end

