-- ==== Sys2Proof/Machine/Fetch.lean ====
section
/-! DEFINITION. Taking the next host operation and decoding it (70_reset_and_hazards.md R155, R156). -/

namespace Sys2Proof.Machine

/-- The decoder's context in a state: is the Accumulator IDLE (R20)? -/
def idle (s : State) : Bool := s.accKind.isNone

/-- The state once the oldest operation has been taken. -/
def takeInput (s : State) : State := { s with inputs := s.inputs.tail }

/-- The instruction a request is, under the latched configuration (R81). -/
def fetchDecode (cfg : Config) (r : Request) (s : State) : Result (Instr × State) :=
  match decode cfg (idle s) r with
  | .ok i => .next (i, takeInput s)
  | .error .emptyChunk => .refused .emptyChunk
  | .error .layout => .refused .illFormedConfig

/-- The configuration checks of a DELIVER or STATUS issued under `under`: there was a RESET (R143), and `under` is what it latched
(R55, R152). -/
def fetchUnder (under : Config) (r : Request) (s : State) : Result (Instr × State) :=
  match s.cfg with
  | none => .refused .beforeReset
  | some cfg => if under = cfg then fetchDecode cfg r s else .refused .configChanged

/-- The next instruction, and the state once its operation has been taken. -/
def fetch (s : State) : Result (Instr × State) :=
  match s.inputs with
  | [] => .fault .runEnded
  | r :: _ =>
    match r with
    | .reset cfg => fetchDecode cfg r s
    | .deliver under _ => fetchUnder under r s
    | .status under => fetchUnder under r s

/-- The state with a request placed before the ones it holds, under `cfg`, the Accumulator IDLE so that the request's chunk is
classified. -/
def placeRequest (cfg : Config) (c : List Byte) (s : State) : State :=
  { accClear s with cfg := some cfg, inputs := .deliver cfg c :: s.inputs }

end Sys2Proof.Machine
end

