-- ==== Sys2Proof/Machine/Step.lean ====
section
/-! DEFINITION. One step: take the oldest host operation, decode it, perform it whole (10_state.md R16, 70_reset_and_hazards.md
R156). -/

namespace Sys2Proof.Machine

/-- One step. -/
def step (s : State) : Host.Outcome State Fault Refusal :=
  match Sys2Proof.Machine.fetch s with
  | .next (i, s1) => exec i s1
  | .fault f => .fault f
  | .refused r => .refused r

/-- `s` with the instruction of a table word as the very next operation (log entry 6). -/
def State.withFetchWord (s : State) (nbits w : Nat) : State :=
  Sys2Proof.Machine.placeRequest (tableConfig (wordBytes nbits w)) (tableChunk nbits w) s

end Sys2Proof.Machine
end

