-- ==== Sys2Proof/Safety.lean ====
section
/-! DEFINITION. What a legal state of the core is, and the terms the claims are written in: a state ready for an operation, an IDLE
Accumulator, the observation of a run (70_reset_and_hazards.md R155). -/

namespace Sys2Proof.Machine

/-- A RESET to the well-formed configuration `cfg` has happened (R140, R143). -/
abbrev Ready (s : State) (cfg : Config) : Prop := s.cfg = some cfg ∧ configOk cfg = true

/-- The Accumulator is IDLE (R20): `acc_kind = NONE`, nothing in the buffer. -/
abbrev IsIdle (s : State) : Prop := s.accKind = none ∧ s.accLen = 0 ∧ s.accBuf = []

/-- The bytes the frame buffer holds, in offset order. -/
def bufferBytes (s : State) : List Byte := s.accBuf.map (·.2)

/-- The buffer is in its canonical form and exactly the offsets `0..acc_len-1` hold a value (R24). -/
abbrev BufferOk (s : State) : Prop := s.accBuf.wf ∧ s.accBuf.map (·.1) = List.range s.accLen

/-- The Accumulator invariant (R27). -/
abbrev AccOk (cfg : Config) (s : State) : Prop :=
  (s.accKind = none ↔ s.accLen = 0) ∧
    ∀ k, s.accKind = some k →
      1 ≤ s.accLen ∧ s.accLen ≤ lenOf cfg k - 1 ∧ bufByte s 0 = some (marker k)

/-- The reassembly invariant (R31). -/
abbrev RaOk (cfg : Config) (s : State) : Prop :=
  s.raGrid.length = 20 * s.raNext.val ∧ (cfg.rev = .single → s.raNext = 0 ∧ s.raGrid = [])

/-- The error register (R33): a clear flag has every field 0, a set one a code of R119; an out-of-sequence part belongs to MULTI
(R123) and a malformed field to SINGLE (R124). -/
abbrev ErrOk (cfg : Config) (r : ErrReg) : Prop :=
  (r.valid = false → r = ErrReg.clear) ∧
    (r.valid = true → 1 ≤ r.code.toNat ∧ r.code.toNat ≤ 4 ∧
      (r.code = 3#3 → cfg.rev = .multi) ∧ (r.code = 4#3 → cfg.rev = .single))

/-- The invariant between two operations of a constructed core. -/
structure LegalUnder (cfg : Config) (s : State) : Prop where
  config : configOk cfg = true
  buffer : BufferOk s
  acc    : AccOk cfg s
  ra     : RaOk cfg s
  err    : ErrOk cfg s.err

/-- A legal state: before the first RESET nothing is held (R143); afterwards the configuration is well formed and the invariants
R24, R27, R31 and R33 hold under it. -/
def Legal (s : State) : Prop :=
  match s.cfg with
  | none => s.accKind = none ∧ s.accLen = 0 ∧ s.accBuf = [] ∧ s.raNext = 0 ∧ s.raGrid = [] ∧ s.err = ErrReg.clear
  | some cfg => LegalUnder cfg s

/-- The observation of `n` steps (R155): the output records in order, and the state at the end. -/
def observe : Nat → State → Result (List OutputRecord × State)
  | 0, s => .next ([], s)
  | n + 1, s => andThen (step s) (fun t => andThen (observe n t) (fun p => .next (t.out :: p.1, p.2)))

/-- The state with these operations still to come. -/
def withInputs (rs : List Request) (s : State) : State := { s with inputs := rs }

end Sys2Proof.Machine
end

