-- ==== Sys2Proof/Certificates/Slice0/Obligations.lean ====
section
/-! DEFINITION. The statements for the provers. Each is a claim about every state and operand that meets its hypotheses; its
docstring names the rule of spec/ it formalises. -/

open Sys2Proof Sys2Proof.Machine

/-! ### Host operations -/

/-- R140 (and R37, which the spec derives from it): RESET with a well-formed configuration leaves every field at its reset
value, latches the configuration, returns the empty record and drops whatever was pending; with an ill-formed one it is refused.
The fields `out`, `statusRet` and `inputs` are the model's own (log entries 1 and 2). -/
def Obligations.ResetLeavesTheResetValues : Prop :=
  ∀ (cfg : Config) (s : State),
    (configOk cfg = true →
      exec (.reset cfg) s = .next
        { cfg := some cfg, accKind := none, accLen := 0, accBuf := [], raNext := 0, raGrid := [],
          err := { valid := false, code := 0#3, a := 0#16, b := 0#32 }, out := { frame := none, error := none },
          statusRet := none, inputs := s.inputs }) ∧
    (configOk cfg = false → exec (.reset cfg) s = .refused .illFormedConfig)

/-- R11, R90: for a tile table in the canonical form of log entry 7, the check RESET makes is exactly the conditions (a) to (e)
and the constraints on the table. -/
def Obligations.ConfigCheckIsR11 : Prop :=
  ∀ c : Config, TileMapCanonical c.tileMap →
    (configOk c = true ↔
      (c.rev = .single → c.lenScreen = 166) ∧
      (c.rev = .multi → c.lenScreen = c.partOff + 41 ∧ 1 ≤ c.partOff) ∧
      1 ≤ c.lenSave ∧ 1 ≤ c.lenLoad ∧
      tileLookup c.tileMap ⟨0x32#8, 0x30#8⟩ = some 0#4 ∧
      tileLookup c.tileMap ⟨0x7A#8, 0x7A#8⟩ = none ∧
      (∀ t code, tileLookup c.tileMap t = some code → code.toNat ≤ 9) ∧
      c.lenScreen ≤ 65535 ∧ c.lenSave ≤ 65535 ∧ c.lenLoad ≤ 65535)

/-- R127: STATUS returns the current `err` and changes nothing; its record is empty (R118). -/
def Obligations.StatusReturnsErrAndChangesNothing : Prop :=
  ∀ (cfg : Config) (s : State), Ready s cfg →
    exec .status s = .next
      { s with out := { frame := none, error := none }, statusRet := some s.err }

/-- R82: an empty chunk is refused, by the instruction and by a step that takes it. -/
def Obligations.EmptyChunkIsRefused : Prop :=
  (∀ s : State, exec (.deliver []) s = .refused .emptyChunk) ∧
    ∀ (cfg : Config) (rest : List Request) (s : State), s.cfg = some cfg →
      s.inputs = .deliver cfg [] :: rest → step s = .refused .emptyChunk

/-- R143: before the first RESET, DELIVER and STATUS are refused, whatever configuration the host holds; a RESET is performed.
-/
def Obligations.OperationsBeforeResetAreRefused : Prop :=
  ∀ (s : State) (cfg : Config) (rest : List Request), s.cfg = none →
    (∀ c, s.inputs = .deliver cfg c :: rest → step s = .refused .beforeReset) ∧
    (s.inputs = .status cfg :: rest → step s = .refused .beforeReset) ∧
    (∀ b c, exec (.deliver (b :: c)) s = .refused .beforeReset) ∧
    exec .status s = .refused .beforeReset ∧
    (s.inputs = .reset cfg :: rest → configOk cfg = true →
      ∃ t, step s = .next t ∧ t.cfg = some cfg)

/-- R55: only RESET changes the configuration, and an operation issued under another one is refused. -/
def Obligations.ConfigurationChangesOnlyByReset : Prop :=
  (∀ (i : Instr) (s t : State), exec i s = .next t →
      (∃ c, i = .reset c ∧ t.cfg = some c) ∨ t.cfg = s.cfg) ∧
    (∀ (cfg other : Config) (c : List Byte) (rest : List Request) (s : State),
      s.cfg = some cfg → other ≠ cfg →
        s.inputs = .deliver other c :: rest ∨ s.inputs = .status other :: rest →
          step s = .refused .configChanged)

/-! ### The Frame Accumulator -/

/-- R61: `classify` is an exact match on all 8 bits. -/
def Obligations.ClassifyIsExact : Prop :=
  (∀ (b : Byte) (k : FrameKind), classify b = some k ↔ b = marker k) ∧
    (∀ b : Byte, classify b = none ↔ b ≠ 0x30#8 ∧ b ≠ 0x31#8 ∧ b ≠ 0x32#8) ∧
    marker .screen = 0x30#8 ∧ marker .save = 0x31#8 ∧ marker .load = 0x32#8

/-- R121: a fresh chunk whose first byte is no marker is dropped whole; UnknownFrameKind is recorded, and nothing else moves.
The frame row and the DELIVER of the same bytes do the same. -/
def Obligations.UnknownFirstByteDropsTheChunk : Prop :=
  ∀ (cfg : Config) (s : State) (b : Byte) (rest : List Byte), Ready s cfg → s.accKind = none →
    classify b = none →
      exec (.frameUnknown b rest) s = .next
        { s with out := { frame := none, error := some (.unknownFrameKind b) }, statusRet := none,
                 err := { valid := true, code := 1#3, a := b.setWidth 16, b := 0#32 } } ∧
      exec (.deliver (b :: rest)) s = exec (.frameUnknown b rest) s

/-- R85, R122: a chunk that would pass `LEN` of the pending or just classified kind raises FrameOverflow with the expected and
the actual length; the pending frame and the chunk are dropped and nothing is emitted. -/
def Obligations.OverflowDropsFrameAndChunk : Prop :=
  ∀ (cfg : Config) (s : State) (k : FrameKind) (b : Byte) (rest : List Byte), Ready s cfg →
    (s.accKind = some k ∨ (s.accKind = none ∧ classify b = some k)) →
    lenOf cfg k < s.accLen + (rest.length + 1) →
      exec (.deliver (b :: rest)) s = .next
        { s with
          accKind := none, accLen := 0, accBuf := [], statusRet := none,
          out := { frame := none, error := some (.frameOverflow (lenOf cfg k) (s.accLen + (rest.length + 1))) },
          err := { valid := true, code := 2#3, a := BitVec.ofNat 16 (lenOf cfg k),
                   b := BitVec.ofNat 32 (min (s.accLen + (rest.length + 1)) (2 ^ 32 - 1)) } }

/-- R39, R84, R86: a chunk that leaves the frame short of `LEN` is appended at `acc_len` and clears the flag. The state is given
in full, and the buffer also byte by byte: byte `i` of the chunk stands at offset `acc_len + i`, every other offset reads as
before. -/
def Obligations.SegmentIsAppendedInOrder : Prop :=
  ∀ (cfg : Config) (s : State) (k : FrameKind) (b : Byte) (rest : List Byte), Ready s cfg →
    (s.accKind = some k ∨ (s.accKind = none ∧ classify b = some k)) →
    s.accLen + (rest.length + 1) < lenOf cfg k →
      ∃ t, exec (.deliver (b :: rest)) s = .next t ∧
        t = { s with
              accKind := some k, accLen := s.accLen + (rest.length + 1),
              accBuf := s.accBuf.write s.accLen (b :: rest), err := ErrReg.clear,
              out := { frame := none, error := none }, statusRet := none } ∧
        (∀ i, i < rest.length + 1 → bufByte t (s.accLen + i) = (b :: rest)[i]?) ∧
        (∀ a, a < s.accLen → bufByte t a = bufByte s a) ∧
        (∀ a, s.accLen + (rest.length + 1) ≤ a → bufByte t a = none)

/-- R87: a chunk that makes the frame exactly `LEN` long hands the whole frame, the buffered bytes followed by the chunk, to the
dispatch, from a state with the Accumulator IDLE and the flag clear (R86); a shorter one ends the operation with the frame
pending and no output. -/
def Obligations.CompletionDispatchesTheWholeFrame : Prop :=
  ∀ (cfg : Config) (s : State) (k : FrameKind) (b : Byte) (rest : List Byte), Legal s → s.cfg = some cfg →
    (s.accKind = some k ∨ (s.accKind = none ∧ classify b = some k)) →
    (s.accLen + (rest.length + 1) = lenOf cfg k →
      exec (.deliver (b :: rest)) s =
        dispatch cfg k (bufferBytes s ++ b :: rest)
          { s with accKind := none, accLen := 0, accBuf := [], err := ErrReg.clear,
                   out := { frame := none, error := none }, statusRet := none }) ∧
    (s.accLen + (rest.length + 1) < lenOf cfg k →
      ∃ t, exec (.deliver (b :: rest)) s = .next t ∧ t.accKind = some k ∧
        t.accLen = s.accLen + (rest.length + 1) ∧ bufferBytes t = bufferBytes s ++ b :: rest ∧
        t.out = { frame := none, error := none })

/-- R128: no error is fatal. In every legal constructed state, whatever `err` holds, every non-empty DELIVER, every frame row,
STATUS, and RESET to a well-formed configuration answer a legal next state with the remaining operations untouched. -/
def Obligations.NoErrorIsFatal : Prop :=
  ∀ (cfg : Config) (s : State), Legal s → s.cfg = some cfg →
    (∀ c, c ≠ [] → ∃ t, exec (.deliver c) s = .next t ∧ Legal t ∧ t.inputs = s.inputs) ∧
    (∀ i, wireBytes i ≠ [] → ∃ t, exec i s = .next t ∧ Legal t ∧ t.inputs = s.inputs) ∧
    (∃ t, exec .status s = .next t ∧ Legal t ∧ t.inputs = s.inputs) ∧
    (∀ c, configOk c = true → ∃ t, exec (.reset c) s = .next t ∧ Legal t ∧ t.inputs = s.inputs)

/-- R88: a pending frame stays pending, and never gets shorter, until an overflow, a completion or a RESET ends it. -/
def Obligations.PendingFrameEndsOnlyByOverflowCompletionOrReset : Prop :=
  ∀ (cfg : Config) (i : Instr) (s t : State) (k : FrameKind), s.cfg = some cfg → s.accKind = some k →
    exec i s = .next t →
      (t.accKind = some k ∧ t.accLen = s.accLen + (wireBytes i).length) ∨
      (∃ c, i = .reset c) ∨
      (t.accKind = none ∧ s.accLen + (wireBytes i).length = lenOf cfg k) ∨
      (t.accKind = none ∧ t.out.error = some (.frameOverflow (lenOf cfg k) (s.accLen + (wireBytes i).length)))

/-- R51: while a frame is pending after an operation, the operation's record is empty: no consumer sees a part of a frame. -/
def Obligations.PendingFrameShowsNothing : Prop :=
  ∀ (i : Instr) (s t : State), exec i s = .next t → t.accKind ≠ none →
    t.out = { frame := none, error := none }

/-- R57 (the spec marks it as derived): however a valid frame is split into non-empty chunks, an IDLE core that is given one
chunk per step emits exactly what it emits for the whole frame in one chunk, at the last chunk, in the same final state, and
every earlier record is empty; the Accumulator raises no error. That one output is a frame event, unless the frame is a part
(MULTI), whose four make one grid. -/
def Obligations.ChunkingInvariance : Prop :=
  ∀ (cfg : Config) (s : State) (k : FrameKind) (frame : List Byte) (chunks : List (List Byte))
    (rest : List Request), Legal s → s.cfg = some cfg → s.accKind = none →
    frame.head? = some (marker k) → frame.length = lenOf cfg k →
    chunks.flatten = frame → (∀ c ∈ chunks, c ≠ []) →
      ∃ t, step (withInputs (.deliver cfg frame :: rest) s) = .next t ∧
        t.accKind = none ∧
        ((k = .screen → cfg.rev = .single) → t.out.frame.isSome = true) ∧
        (∀ b, t.out.error ≠ some (.unknownFrameKind b)) ∧
        (∀ e a, t.out.error ≠ some (.frameOverflow e a)) ∧
        observe chunks.length (withInputs (chunks.map (Request.deliver cfg) ++ rest) s) =
          .next (List.replicate (chunks.length - 1) { frame := none, error := none } ++ [t.out], t)

/-! ### Frame rows: SINGLE screens, save and load frames -/

/-- A frame row is the DELIVER of its wire bytes, in every state: where the row does not apply (a pending frame, the other
revision) the statements about DELIVER say what happens. The reading of the frame rows is the model's (log entry 5). -/
def Obligations.FrameRowIsItsChunk : Prop :=
  ∀ (s : State) (tokens : List Token) (filler payload rest : List Byte) (s0 s1 s2 d l x b : Byte),
    exec (.frameScreen tokens s0 s1 s2 d l) s =
      exec (.deliver (0x30#8 :: (tokenBytes tokens ++ [s0, s1, s2, d, l]))) s ∧
    exec (.framePart filler tokens x) s =
      exec (.deliver (0x30#8 :: (filler ++ (tokenBytes tokens ++ [x])))) s ∧
    exec (.frameSave payload) s = exec (.deliver (0x31#8 :: payload)) s ∧
    exec (.frameLoad payload) s = exec (.deliver (0x32#8 :: payload)) s ∧
    exec (.frameUnknown b rest) s = exec (.deliver (b :: rest)) s

/-- R97 with R98, R101, R102, R103, R104: a SINGLE screen frame taken whole while IDLE. Cell `i` of the grid is `TOK` of token
`i`, or Air in all 80 cells when the lose byte is `0x31`; a bad numeric field raises MalformedNumericField with its mask and the
frame is emitted all the same. The score and difficulty are DEC3 and DEC1 of their bytes; what those are for valid fields is
ValidNumericFieldsHaveTheirDecimalValue, and no value of an invalid field is claimed. -/
def Obligations.ScreenFrameIsDecodedAndEmitted : Prop :=
  ∀ (cfg : Config) (s : State) (ts : List Token) (s0 s1 s2 d l : Byte), Ready s cfg → cfg.rev = .single →
    IsIdle s → ts.length = 80 →
      exec (.frameScreen ts s0 s1 s2 d l) s = .next
        { s with
          statusRet := none
          out :=
            { frame := some (.screenFrame
                { grid := if l = 0x31#8 then List.replicate 80 .air else ts.map (tok cfg)
                  score := scoreOf s0 s1 s2
                  scoreValid := isDigit s0 && isDigit s1 && isDigit s2
                  difficulty := difficultyOf d
                  difficultyValid := isDigit d
                  lose := decide (l = 0x31#8) })
              error :=
                if isDigit s0 && isDigit s1 && isDigit s2 && isDigit d then none
                else some (.malformedNumericField
                  ((if isDigit s0 && isDigit s1 && isDigit s2 then 0#2 else 1#2) + (if isDigit d then 0#2 else 2#2))) }
          err :=
            if isDigit s0 && isDigit s1 && isDigit s2 && isDigit d then ErrReg.clear
            else
              { valid := true, code := 4#3, b := 0#32
                a := (if isDigit s0 && isDigit s1 && isDigit s2 then 0#16 else 1#16) + (if isDigit d then 0#16 else 2#16) } }

/-- R98, by the frame's own offsets: a 166-byte chunk that starts with the screen marker, delivered to an IDLE SINGLE core,
emits one screen of 80 cells; unless the lose byte is `0x31`, cell `i` is `TOK` of the bytes at `1+2i` and `2+2i`. The score is
at 161..163, the difficulty at 164, the lose byte at 165, and no error is raised when those four are digits (95 V9). -/
def Obligations.ScreenFrameByOffsets : Prop :=
  ∀ (cfg : Config) (s : State) (chunk : List Byte), Ready s cfg → cfg.rev = .single → IsIdle s →
    chunk.length = 166 → chunk[0]? = some 0x30#8 →
      ∃ t e, exec (.deliver chunk) s = .next t ∧ t.out.frame = some (.screenFrame e) ∧ e.grid.length = 80 ∧
        (e.lose = true ↔ chunk[165]? = some 0x31#8) ∧
        (chunk[165]? ≠ some 0x31#8 → ∀ (i : Nat) (t0 t1 : Byte), i < 80 → chunk[1 + 2 * i]? = some t0 →
          chunk[2 + 2 * i]? = some t1 → e.grid[i]? = some (tok cfg ⟨t0, t1⟩)) ∧
        (∀ s0 s1 s2 d : Byte, chunk[161]? = some s0 → chunk[162]? = some s1 → chunk[163]? = some s2 → chunk[164]? = some d →
          e.score = scoreOf s0 s1 s2 ∧ e.scoreValid = scoreValid s0 s1 s2 ∧
          e.difficulty = difficultyOf d ∧ e.difficultyValid = difficultyValid d ∧
          (isDigit s0 = true → isDigit s1 = true → isDigit s2 = true → isDigit d = true → t.out.error = none))

/-- R69 (its range is the spec's general knowledge G2, log entry 11) and R72: which bytes are digits and what they are worth;
`lose` is exactly the byte `0x31`. -/
def Obligations.DigitsAndLoseByte : Prop :=
  (∀ b : Byte, isDigit b = true ↔ 0x30 ≤ b.toNat ∧ b.toNat ≤ 0x39) ∧
    (∀ b : Byte, isDigit b = true → digit b = b.toNat - 0x30 ∧ digit b ≤ 9) ∧
    (∀ f : Byte, loseOf f = true ↔ f = 0x31#8)

/-- R70, R71, R99, R100 for valid fields (the digit order is the spec's general knowledge G1, log entry 11): three digits are a
score in 0..999, most significant first, one digit a difficulty in 0..9; a field with another byte is marked invalid (its value
is not claimed). -/
def Obligations.ValidNumericFieldsHaveTheirDecimalValue : Prop :=
  ∀ s0 s1 s2 d : Byte,
    (scoreValid s0 s1 s2 = true ↔ isDigit s0 = true ∧ isDigit s1 = true ∧ isDigit s2 = true) ∧
    (scoreValid s0 s1 s2 = true →
      (scoreOf s0 s1 s2).toNat = 100 * (s0.toNat - 0x30) + 10 * (s1.toNat - 0x30) + (s2.toNat - 0x30) ∧
      (scoreOf s0 s1 s2).toNat ≤ 999) ∧
    (difficultyValid d = true ↔ isDigit d = true) ∧
    (difficultyValid d = true → (difficultyOf d).toNat = d.toNat - 0x30 ∧ (difficultyOf d).toNat ≤ 9)

/-- R105: a save frame taken whole while IDLE passes its payload on byte for byte. -/
def Obligations.SaveFramePassesItsPayload : Prop :=
  ∀ (cfg : Config) (s : State) (payload : List Byte), Ready s cfg → IsIdle s → payload.length + 1 = cfg.lenSave →
    exec (.frameSave payload) s = .next
      { s with statusRet := none, err := ErrReg.clear,
               out := { frame := some (.saveBlob payload), error := none } }

/-- R106: a load request frame taken whole while IDLE passes its payload on byte for byte. -/
def Obligations.LoadFramePassesItsPayload : Prop :=
  ∀ (cfg : Config) (s : State) (payload : List Byte), Ready s cfg → IsIdle s → payload.length + 1 = cfg.lenLoad →
    exec (.frameLoad payload) s = .next
      { s with statusRet := none, err := ErrReg.clear,
               out := { frame := some (.loadRequest payload), error := none } }

/-- R98, R99, R100, R113: every grid that is emitted has exactly 80 cells, and a score or difficulty that is marked valid is in
its range. -/
def Obligations.EmittedFramesAreInRange : Prop :=
  ∀ (i : Instr) (s t : State), exec i s = .next t →
    (∀ e, t.out.frame = some (.screenFrame e) →
      e.grid.length = 80 ∧ (e.scoreValid = true → e.score.toNat ≤ 999) ∧
      (e.difficultyValid = true → e.difficulty.toNat ≤ 9) ∧ (e.lose = true → e.grid = List.replicate 80 .air)) ∧
    (∀ g, t.out.frame = some (.gridFrame g) → g.length = 80)

/-- R107: in the SINGLE revision what an IDLE core makes of a chunk depends on the configuration and the chunk alone: two states
that differ in everything else get the same record, error register and Accumulator. -/
def Obligations.IdleSingleCoreForgetsThePast : Prop :=
  ∀ (cfg : Config) (c : List Byte) (s s' t t' : State), Ready s cfg → Ready s' cfg → cfg.rev = .single →
    IsIdle s → IsIdle s' → exec (.deliver c) s = .next t → exec (.deliver c) s' = .next t' →
      t.out = t'.out ∧ t.err = t'.err ∧ t.accKind = t'.accKind ∧ t.accLen = t'.accLen ∧ t.accBuf = t'.accBuf

/-! ### The Part Reassembler -/

/-- R112, R114: a part whose index byte is the expected digit, not the last, is decoded and appended, and the expected index
advances; nothing is emitted. -/
def Obligations.ExpectedPartIsAppended : Prop :=
  ∀ (cfg : Config) (s : State) (filler : List Byte) (ts : List Token) (x : Byte), Ready s cfg → cfg.rev = .multi →
    IsIdle s → filler.length + 1 = cfg.partOff → ts.length = 20 → s.raNext.val < 3 →
    x.toNat = 0x30 + s.raNext.val →
      exec (.framePart filler ts x) s = .next
        { s with raNext := s.raNext + 1, raGrid := s.raGrid ++ ts.map (tok cfg), statusRet := none,
                 err := ErrReg.clear, out := { frame := none, error := none } }

/-- R113: the last part completes the grid: the 60 cells held and the 20 of this part are emitted in order, and the reassembly
is empty again. -/
def Obligations.LastPartEmitsTheGrid : Prop :=
  ∀ (cfg : Config) (s : State) (filler : List Byte) (ts : List Token), Ready s cfg → cfg.rev = .multi →
    IsIdle s → filler.length + 1 = cfg.partOff → ts.length = 20 → s.raNext = 3 → s.raGrid.length = 60 →
      exec (.framePart filler ts 0x33#8) s = .next
        { s with raNext := 0, raGrid := [], statusRet := none, err := ErrReg.clear,
                 out := { frame := some (.gridFrame (s.raGrid ++ ts.map (tok cfg))), error := none } }

/-- R111, R123: any other index byte raises OutOfSequencePart with the expected index and the byte observed; the part and the
reassembly are dropped and nothing is emitted. -/
def Obligations.OutOfSequencePartDropsTheReassembly : Prop :=
  ∀ (cfg : Config) (s : State) (filler : List Byte) (ts : List Token) (x : Byte), Ready s cfg → cfg.rev = .multi →
    IsIdle s → filler.length + 1 = cfg.partOff → ts.length = 20 → x.toNat ≠ 0x30 + s.raNext.val →
      exec (.framePart filler ts x) s = .next
        { s with raNext := 0, raGrid := [], statusRet := none,
                 out := { frame := none, error := some (.outOfSequencePart s.raNext x) },
                 err := { valid := true, code := 3#3, a := BitVec.ofNat 16 s.raNext.val, b := x.setWidth 32 } }

/-- R75 (the spec marks it as derived): from an IDLE core that expects part 0, the four parts in order end in one grid; tile `j`
of part `p` is its cell `20p + j`, and the core is again ready for part 0. -/
def Obligations.FourPartsInOrderMakeOneGrid : Prop :=
  ∀ (cfg : Config) (s : State) (fillers : Fin 4 → List Byte) (parts : Fin 4 → List Token), Legal s →
    s.cfg = some cfg → cfg.rev = .multi → s.accKind = none → s.raNext = 0 →
    (∀ p, (fillers p).length + 1 = cfg.partOff) → (∀ p, (parts p).length = 20) →
      ∃ t1 t2 t3 t4 g,
        exec (.framePart (fillers 0) (parts 0) 0x30#8) s = .next t1 ∧
        exec (.framePart (fillers 1) (parts 1) 0x31#8) t1 = .next t2 ∧
        exec (.framePart (fillers 2) (parts 2) 0x32#8) t2 = .next t3 ∧
        exec (.framePart (fillers 3) (parts 3) 0x33#8) t3 = .next t4 ∧
        t1.out.frame = none ∧ t2.out.frame = none ∧ t3.out.frame = none ∧
        t4.out = { frame := some (.gridFrame g), error := none } ∧ g.length = 80 ∧
        (∀ (p : Fin 4) (j : Nat), j < 20 → g[20 * p.val + j]? = ((parts p)[j]?).map (tok cfg)) ∧
        t4.raNext = 0 ∧ t4.raGrid = []

/-- R116: only a completed MULTI part, or RESET, changes the reassembly. So the errors of the Accumulator, and save and load
frames that complete between two parts, leave it as it was. -/
def Obligations.OnlyPartsAndResetChangeTheReassembly : Prop :=
  ∀ (cfg : Config) (i : Instr) (s t : State), s.cfg = some cfg → exec i s = .next t →
    (t.raNext ≠ s.raNext ∨ t.raGrid ≠ s.raGrid →
      (∃ c, i = .reset c) ∨
      (cfg.rev = .multi ∧ ∃ b rest, wireBytes i = b :: rest ∧ kindFor s b = some .screen ∧
        s.accLen + (rest.length + 1) = cfg.lenScreen)) ∧
    ((∃ b, t.out.error = some (.unknownFrameKind b)) ∨ (∃ e a, t.out.error = some (.frameOverflow e a)) ∨
      (∃ p, t.out.frame = some (.saveBlob p)) ∨ (∃ p, t.out.frame = some (.loadRequest p)) →
      t.raNext = s.raNext ∧ t.raGrid = s.raGrid)

/-- R31 (the spec marks it as derived): the expected index stays, returns to 0, or advances by one from below 3; it has no other
move. -/
def Obligations.PartCounterMoves : Prop :=
  ∀ (i : Instr) (s t : State), exec i s = .next t →
    t.raNext = s.raNext ∨ t.raNext = 0 ∨ (s.raNext.val < 3 ∧ t.raNext.val = s.raNext.val + 1)

/-! ### The Token Decoder -/

/-- R93: an unrecognised token is the fallback identity of R92, and every other token is the identity whose code the table
gives. -/
def Obligations.TokenDecodesByTableOrFallback : Prop :=
  ∀ (cfg : Config) (t : Token), configOk cfg = true →
    (tileLookup cfg.tileMap t = none →
      (cfg.fallback = .unknown → tok cfg t = .unknown) ∧ (cfg.fallback = .air → tok cfg t = .air)) ∧
    (∀ code, tileLookup cfg.tileMap t = some code → tileCode (tok cfg t) = code ∧ tok cfg t ≠ .unknown)

/-- R94: `TOKENS(b, n)` decodes each pair of bytes on its own, in order. -/
def Obligations.TokensDecodesEachPairInOrder : Prop :=
  ∀ (cfg : Config) (b : List Byte) (n : Nat), b.length = 2 * n →
    (tokens cfg b n).length = n ∧
    ∀ (j : Nat) (t0 t1 : Byte), b[2 * j]? = some t0 → b[2 * j + 1]? = some t1 →
      (tokens cfg b n)[j]? = some (tok cfg ⟨t0, t1⟩)

/-- R90, R95: the list form of the tile table loses nothing: every function from tokens to a code or NOMATCH is the lookup of a
canonical list, and of only one. The list form is the model's (log entry 7). -/
def Obligations.EveryTileFunctionHasOneTable : Prop :=
  ∀ f : Token → Option (BitVec 4),
    ∃ m, (TileMapCanonical m ∧ ∀ t, tileLookup m t = f t) ∧
      ∀ m', TileMapCanonical m' → (∀ t, tileLookup m' t = f t) → m' = m

/-! ### Outputs and errors -/

/-- R125 with R119 and R120: raising an error puts the exact event in the record and its code and details in the register,
whatever either held; the saturation is ERR_B's alone. -/
def Obligations.RaiseRecordsTheError : Prop :=
  ∀ (e : ErrorEvent) (s : State),
    (raise e s).out.error = some e ∧ (raise e s).out.frame = s.out.frame ∧ (raise e s).err.valid = true ∧
    { raise e s with out := s.out, err := s.err } = s ∧
    (∀ b, e = .unknownFrameKind b →
      (raise e s).err.code = 1#3 ∧ (raise e s).err.a.toNat = b.toNat ∧ (raise e s).err.b = 0#32) ∧
    (∀ expected actual, e = .frameOverflow expected actual →
      (raise e s).err.code = 2#3 ∧ (expected ≤ 65535 → (raise e s).err.a.toNat = expected) ∧
      (raise e s).err.b.toNat = min actual (2 ^ 32 - 1)) ∧
    (∀ expected observed, e = .outOfSequencePart expected observed →
      (raise e s).err.code = 3#3 ∧ (raise e s).err.a.toNat = expected.val ∧
      (raise e s).err.b.toNat = observed.toNat) ∧
    (∀ mask, e = .malformedNumericField mask →
      (raise e s).err.code = 4#3 ∧ (raise e s).err.a.toNat = mask.toNat ∧ (raise e s).err.b = 0#32)

/-- R118 (the spec marks it as derived): the combinations of frame and error one operation can return, with the revision each
belongs to (R108, R123, R124); RESET and STATUS return the empty record. -/
def Obligations.OutputRecordCombinations : Prop :=
  ∀ (cfg : Config) (i : Instr) (s t : State), s.cfg = some cfg → exec i s = .next t →
    ((i = .status ∨ ∃ c, i = .reset c) → t.out = { frame := none, error := none }) ∧
    (∀ e, t.out.frame = some (.screenFrame e) → cfg.rev = .single) ∧
    (∀ g, t.out.frame = some (.gridFrame g) → cfg.rev = .multi) ∧
    (∀ b, t.out.error = some (.unknownFrameKind b) → t.out.frame = none) ∧
    (∀ e a, t.out.error = some (.frameOverflow e a) → t.out.frame = none) ∧
    (∀ p x, t.out.error = some (.outOfSequencePart p x) → t.out.frame = none ∧ cfg.rev = .multi) ∧
    (∀ m, t.out.error = some (.malformedNumericField m) →
      (∃ e, t.out.frame = some (.screenFrame e)) ∧ cfg.rev = .single)

/-- R129 (the spec marks it as derived from R121 to R125 and R116): what each error changes, in full. -/
def Obligations.ErrorChangesExactlyItsState : Prop :=
  ∀ (cfg : Config) (i : Instr) (s t : State) (e : ErrorEvent), Legal s → s.cfg = some cfg → exec i s = .next t →
    t.out.error = some e →
      t.err = errRegOf e ∧
      (∀ b, e = .unknownFrameKind b →
        s.accKind = none ∧ t.accKind = none ∧ t.accLen = 0 ∧ t.accBuf = s.accBuf ∧ t.raNext = s.raNext ∧
        t.raGrid = s.raGrid ∧ t.out.frame = none) ∧
      (∀ x a, e = .frameOverflow x a →
        t.accKind = none ∧ t.accLen = 0 ∧ t.raNext = s.raNext ∧ t.raGrid = s.raGrid ∧ t.out.frame = none) ∧
      (∀ p x, e = .outOfSequencePart p x →
        t.accKind = none ∧ t.accLen = 0 ∧ t.raNext = 0 ∧ t.raGrid = [] ∧ t.out.frame = none) ∧
      (∀ m, e = .malformedNumericField m →
        t.accKind = none ∧ t.accLen = 0 ∧ t.raNext = s.raNext ∧ t.raGrid = s.raGrid ∧
        ∃ ev, t.out.frame = some (.screenFrame ev))

/-- R130, R131: the error register after any operation. STATUS keeps it and returns it; after any other operation it holds that
operation's error, and is clear if the operation raised none. -/
def Obligations.ErrorFlagLivesUntilAcceptedChunkRaiseOrReset : Prop :=
  ∀ (i : Instr) (s t : State), exec i s = .next t →
    (i = .status → t.err = s.err ∧ t.statusRet = some s.err) ∧
    (i ≠ .status → (t.out.error = none → t.err = ErrReg.clear) ∧
      (∀ e, t.out.error = some e → t.err = errRegOf e) ∧ t.statusRet = none)

/-! ### Encoding -/

/-- R58 to R67: decode and encode agree on every instruction, host operations and frame rows, with every operand at every value:
a well-formed instruction whose row applies is what the decoder reads from the host operation that carries it. When a row
applies is the model's reading of the opcode table (log entry 5, DEDUCED). -/
def Obligations.DecodeOfEncodeIsTheInstruction : Prop :=
  ∀ (cfg : Config) (idle : Bool) (i : Instr), configOk cfg = true → i.wellFormed cfg = true →
    i.applies cfg idle = true → decode cfg idle (encode cfg i) = .ok i

/-- The other direction, and the model's own reading of the opcode table (log entry 5, DEDUCED), not a rule of the spec: every
non-empty chunk, in either phase, is exactly one well-formed instruction whose row applies, and that instruction's wire bytes
are the chunk, so no byte is dropped. It rests on R61 (classify is total) and R77, R83, R84 (what a chunk's first byte is in
each phase). -/
def Obligations.EveryChunkIsOneInstruction : Prop :=
  ∀ (cfg : Config) (idle : Bool) (c : List Byte), configOk cfg = true → c ≠ [] →
    ∃ i, decode cfg idle (.deliver cfg c) = .ok i ∧ wireBytes i = c ∧ i.wellFormed cfg = true ∧
      i.applies cfg idle = true

/-- Bytes written out from the layouts of R60 to R66: a load frame (95 P2), a one-byte segment, an unknown first byte, a save
frame of a configuration whose LEN_SAVE is 4, a part frame whose 20 tokens are "20", and a marker that arrives while a frame is
pending. The bytes and the fields are the spec's; that a chunk which is exactly one frame is its frame row, while the segment
`[0x30]` is DELIVER, is the model's reading of the opcode table (log entry 5, DEDUCED). -/
def Obligations.WrittenOutChunksDecode : Prop :=
  decodeChunk (defaultConfig .single leastTileMap) true
      [0x32#8, 0x4C#8, 0x4F#8, 0x41#8, 0x44#8, 0x52#8, 0x45#8, 0x51#8, 0x55#8, 0x45#8, 0x53#8, 0x54#8, 0x31#8] =
    .ok (.frameLoad [0x4C#8, 0x4F#8, 0x41#8, 0x44#8, 0x52#8, 0x45#8, 0x51#8, 0x55#8, 0x45#8, 0x53#8, 0x54#8, 0x31#8]) ∧
  decodeChunk (defaultConfig .single leastTileMap) true [0x30#8] = .ok (.deliver [0x30#8]) ∧
  decodeChunk (defaultConfig .single leastTileMap) true [0x33#8, 0x30#8] = .ok (.frameUnknown 0x33#8 [0x30#8]) ∧
  decodeChunk { defaultConfig .multi leastTileMap with lenSave := 4 } true [0x31#8, 0x30#8, 0x31#8, 0x32#8] =
    .ok (.frameSave [0x30#8, 0x31#8, 0x32#8]) ∧
  decodeChunk (defaultConfig .multi leastTileMap) true
      (0x30#8 :: ((List.replicate 20 [0x32#8, 0x30#8]).flatten ++ [0x33#8])) =
    .ok (.framePart [] (List.replicate 20 ⟨0x32#8, 0x30#8⟩) 0x33#8) ∧
  decodeChunk (defaultConfig .single leastTileMap) false [0x32#8] = .ok (.deliver [0x32#8])

/-! ### The step -/

/-- A step takes the oldest operation and runs the instruction it decodes to: for a DELIVER or STATUS issued under the latched
configuration, and for a RESET in every state. The queue is the model's (log entry 1). -/
def Obligations.StepRunsTheDecodedInstruction : Prop :=
  ∀ (s : State) (rest : List Request),
    (∀ (cfg : Config) (c : List Byte) (i : Instr), s.cfg = some cfg → s.inputs = .deliver cfg c :: rest →
      decodeChunk cfg s.accKind.isNone c = .ok i → step s = exec i (withInputs rest s)) ∧
    (∀ cfg : Config, s.cfg = some cfg → s.inputs = .status cfg :: rest →
      step s = exec .status (withInputs rest s)) ∧
    (∀ cfg : Config, s.inputs = .reset cfg :: rest → step s = exec (.reset cfg) (withInputs rest s))

/-- R24, R27, R31, R33 (the spec marks R27 and R31 as derived): the state a RESET leaves is legal, for every well-formed
configuration, and so are the model's named reset state and the state before the first RESET. -/
def Obligations.ResetStatesAreLegal : Prop :=
  (∀ cfg, configOk cfg = true → Legal (State.afterReset cfg)) ∧ Legal State.reset ∧ Legal State.unconstructed

/-- R24, R27, R31, R33 (the spec marks R27 and R31 as derived): every step from a legal state leaves a legal state. -/
def Obligations.StepKeepsTheInvariant : Prop :=
  ∀ s t : State, Legal s → step s = .next t → Legal t

/-- R137, R24, R29: in a legal state a step faults only when the run has ended: no step reads an offset or a cell that holds no
value, writes outside the buffer or runs short of a frame. That an empty queue is the fault `runEnded` is the model's choice
(log entry 3, DESIGN CHOICE), and that those reads, writes and short frames would be faults, and not the refusals R137 lists, is
the model's too (log entry 9, DEDUCED). -/
def Obligations.LegalStatesFaultOnlyAtTheEnd : Prop :=
  ∀ (s : State) (f : Fault), Legal s → step s = .fault f → f = .runEnded ∧ s.inputs = []

/-- R156 (the spec marks it as derived), R137: in a legal state a step refuses exactly an operation before the first RESET, one
issued under another configuration, an empty chunk, and a RESET to an ill-formed configuration. The queue the operations are
taken from is the model's (log entry 1, DESIGN CHOICE), and so is that the reads R137 also lists are faults and not refusals
(log entry 9, DEDUCED). -/
def Obligations.RefusalsAreExactlyThoseOfTheSpec : Prop :=
  ∀ (s : State) (r : Refusal), Legal s →
    (step s = .refused r ↔
      (r = .beforeReset ∧ s.cfg = none ∧
        ((∃ c b rest, s.inputs = .deliver c b :: rest) ∨ ∃ c rest, s.inputs = .status c :: rest)) ∨
      (r = .configChanged ∧ ∃ cfg other rest, s.cfg = some cfg ∧ other ≠ cfg ∧
        ((∃ b, s.inputs = .deliver other b :: rest) ∨ s.inputs = .status other :: rest)) ∨
      (r = .emptyChunk ∧ ∃ cfg rest, s.cfg = some cfg ∧ s.inputs = .deliver cfg [] :: rest) ∨
      (r = .illFormedConfig ∧ ∃ c rest, s.inputs = .reset c :: rest ∧ configOk c = false))
end

