-- ==== Sys2Proof/Laws/Decode.lean ====
section
/-! SUPPORT. The decoder's helpers: tokens and their bytes, and the marker table. -/

namespace Sys2Proof

@[simp] theorem tokenBytes_length (ts : List Token) : (tokenBytes ts).length = 2 * ts.length := by
  induction ts with
  | nil => rfl
  | cons t ts ih => simp only [tokenBytes, List.length_cons, ih]; omega

@[simp] theorem tokenPairs_tokenBytes (ts : List Token) : tokenPairs (tokenBytes ts) = ts := by
  induction ts with
  | nil => rfl
  | cons t ts ih => simp [tokenBytes, tokenPairs, ih]

theorem tokenBytes_tokenPairs {n : Nat} {bs : List Byte} (h : bs.length = 2 * n) : tokenBytes (tokenPairs bs) = bs := by
  induction n generalizing bs with
  | zero => simp_all [tokenPairs, tokenBytes]
  | succ n ih =>
    match bs, h with
    | a :: b :: r, h => simp [tokenPairs, tokenBytes, ih (bs := r) (by simp at h; omega)]

theorem tokenPairs_length {n : Nat} {bs : List Byte} (h : bs.length = 2 * n) : (tokenPairs bs).length = n := by
  have h1 := congrArg List.length (tokenBytes_tokenPairs h)
  rw [tokenBytes_length, h] at h1
  omega

@[simp] theorem classify_marker (k : FrameKind) : classify (marker k) = some k := by cases k <;> rfl

theorem marker_of_classify {b : Byte} {k : FrameKind} (h : classify b = some k) : marker k = b := by
  unfold classify at h
  split at h
  · cases h; simp_all [marker]
  · split at h
    · cases h; simp_all [marker]
    · split at h
      · cases h; simp_all [marker]
      · cases h

theorem lenOf_le_bufCap (cfg : Config) (k : FrameKind) : lenOf cfg k ≤ bufCap cfg := by
  cases k <;> simp [lenOf, bufCap]

/-- What a well-formed configuration says of the screen length (R11). -/
theorem screenLength_of_configOk {cfg : Config} (h : configOk cfg = true) :
    (cfg.rev = .single → cfg.lenScreen = 166) ∧
      (cfg.rev = .multi → cfg.lenScreen = cfg.partOff + 41 ∧ 1 ≤ cfg.partOff) := by
  simp only [configOk, Bool.and_eq_true, screenLengthOk] at h
  constructor <;> intro hr <;> simp_all

theorem lenOf_pos {cfg : Config} (h : configOk cfg = true) (k : FrameKind) : 1 ≤ lenOf cfg k := by
  have hs := screenLength_of_configOk h
  simp only [configOk, Bool.and_eq_true, decide_eq_true_eq] at h
  cases k with
  | screen =>
    cases hr : cfg.rev with
    | single => simp [lenOf, hs.1 hr]
    | multi => simp [lenOf, (hs.2 hr).1]
  | save => exact h.1.1.1.1.1.2
  | load => exact h.1.1.1.1.2

namespace Machine

/-- `TOKENS` on the bytes of tokens, whatever follows them. -/
theorem tokens_tokenBytes_append (cfg : Config) (ts : List Token) (r : List Byte) {n : Nat} (h : ts.length = n) :
    tokens cfg (tokenBytes ts ++ r) n = ts.map (tok cfg) := by
  rw [tokens, List.take_append_of_le_length (by simp [h]), List.take_of_length_le (by simp [h]), tokenPairs_tokenBytes]

theorem tokens_length (cfg : Config) {b : List Byte} {n : Nat} (h : 2 * n ≤ b.length) : (tokens cfg b n).length = n := by
  rw [tokens, List.length_map]
  exact tokenPairs_length (by simp [h])

end Machine

end Sys2Proof
end

