-- ==== Sys2Proof/Laws/State.lean ====
section
/-! SUPPORT. What each update of the state leaves in each field: one lemma per field and update, so that no later proof unfolds a
record update. -/

namespace Sys2Proof.Machine

@[simp] theorem beginOp_cfg (s : State) : (beginOp s).cfg = s.cfg := rfl
@[simp] theorem beginOp_accKind (s : State) : (beginOp s).accKind = s.accKind := rfl
@[simp] theorem beginOp_accLen (s : State) : (beginOp s).accLen = s.accLen := rfl
@[simp] theorem beginOp_accBuf (s : State) : (beginOp s).accBuf = s.accBuf := rfl
@[simp] theorem beginOp_raNext (s : State) : (beginOp s).raNext = s.raNext := rfl
@[simp] theorem beginOp_raGrid (s : State) : (beginOp s).raGrid = s.raGrid := rfl
@[simp] theorem beginOp_err (s : State) : (beginOp s).err = s.err := rfl
@[simp] theorem beginOp_out (s : State) : (beginOp s).out = OutputRecord.empty := rfl
@[simp] theorem beginOp_statusRet (s : State) : (beginOp s).statusRet = none := rfl
@[simp] theorem beginOp_inputs (s : State) : (beginOp s).inputs = s.inputs := rfl

@[simp] theorem accClear_cfg (s : State) : (accClear s).cfg = s.cfg := rfl
@[simp] theorem accClear_accKind (s : State) : (accClear s).accKind = none := rfl
@[simp] theorem accClear_accLen (s : State) : (accClear s).accLen = 0 := rfl
@[simp] theorem accClear_accBuf (s : State) : (accClear s).accBuf = [] := rfl
@[simp] theorem accClear_raNext (s : State) : (accClear s).raNext = s.raNext := rfl
@[simp] theorem accClear_raGrid (s : State) : (accClear s).raGrid = s.raGrid := rfl
@[simp] theorem accClear_err (s : State) : (accClear s).err = s.err := rfl
@[simp] theorem accClear_out (s : State) : (accClear s).out = s.out := rfl
@[simp] theorem accClear_statusRet (s : State) : (accClear s).statusRet = s.statusRet := rfl
@[simp] theorem accClear_inputs (s : State) : (accClear s).inputs = s.inputs := rfl

@[simp] theorem raClear_cfg (s : State) : (raClear s).cfg = s.cfg := rfl
@[simp] theorem raClear_accKind (s : State) : (raClear s).accKind = s.accKind := rfl
@[simp] theorem raClear_accLen (s : State) : (raClear s).accLen = s.accLen := rfl
@[simp] theorem raClear_accBuf (s : State) : (raClear s).accBuf = s.accBuf := rfl
@[simp] theorem raClear_raNext (s : State) : (raClear s).raNext = 0 := rfl
@[simp] theorem raClear_raGrid (s : State) : (raClear s).raGrid = [] := rfl
@[simp] theorem raClear_err (s : State) : (raClear s).err = s.err := rfl
@[simp] theorem raClear_out (s : State) : (raClear s).out = s.out := rfl
@[simp] theorem raClear_statusRet (s : State) : (raClear s).statusRet = s.statusRet := rfl
@[simp] theorem raClear_inputs (s : State) : (raClear s).inputs = s.inputs := rfl

@[simp] theorem clearErr_cfg (s : State) : (clearErr s).cfg = s.cfg := rfl
@[simp] theorem clearErr_accKind (s : State) : (clearErr s).accKind = s.accKind := rfl
@[simp] theorem clearErr_accLen (s : State) : (clearErr s).accLen = s.accLen := rfl
@[simp] theorem clearErr_accBuf (s : State) : (clearErr s).accBuf = s.accBuf := rfl
@[simp] theorem clearErr_raNext (s : State) : (clearErr s).raNext = s.raNext := rfl
@[simp] theorem clearErr_raGrid (s : State) : (clearErr s).raGrid = s.raGrid := rfl
@[simp] theorem clearErr_err (s : State) : (clearErr s).err = ErrReg.clear := rfl
@[simp] theorem clearErr_out (s : State) : (clearErr s).out = s.out := rfl
@[simp] theorem clearErr_statusRet (s : State) : (clearErr s).statusRet = s.statusRet := rfl
@[simp] theorem clearErr_inputs (s : State) : (clearErr s).inputs = s.inputs := rfl

@[simp] theorem emit_cfg (f : FrameEvent) (s : State) : (emit f s).cfg = s.cfg := rfl
@[simp] theorem emit_accKind (f : FrameEvent) (s : State) : (emit f s).accKind = s.accKind := rfl
@[simp] theorem emit_accLen (f : FrameEvent) (s : State) : (emit f s).accLen = s.accLen := rfl
@[simp] theorem emit_accBuf (f : FrameEvent) (s : State) : (emit f s).accBuf = s.accBuf := rfl
@[simp] theorem emit_raNext (f : FrameEvent) (s : State) : (emit f s).raNext = s.raNext := rfl
@[simp] theorem emit_raGrid (f : FrameEvent) (s : State) : (emit f s).raGrid = s.raGrid := rfl
@[simp] theorem emit_err (f : FrameEvent) (s : State) : (emit f s).err = s.err := rfl
@[simp] theorem emit_out (f : FrameEvent) (s : State) : (emit f s).out = { s.out with frame := some f } := rfl
@[simp] theorem emit_statusRet (f : FrameEvent) (s : State) : (emit f s).statusRet = s.statusRet := rfl
@[simp] theorem emit_inputs (f : FrameEvent) (s : State) : (emit f s).inputs = s.inputs := rfl

@[simp] theorem raise_cfg (e : ErrorEvent) (s : State) : (raise e s).cfg = s.cfg := rfl
@[simp] theorem raise_accKind (e : ErrorEvent) (s : State) : (raise e s).accKind = s.accKind := rfl
@[simp] theorem raise_accLen (e : ErrorEvent) (s : State) : (raise e s).accLen = s.accLen := rfl
@[simp] theorem raise_accBuf (e : ErrorEvent) (s : State) : (raise e s).accBuf = s.accBuf := rfl
@[simp] theorem raise_raNext (e : ErrorEvent) (s : State) : (raise e s).raNext = s.raNext := rfl
@[simp] theorem raise_raGrid (e : ErrorEvent) (s : State) : (raise e s).raGrid = s.raGrid := rfl
@[simp] theorem raise_err (e : ErrorEvent) (s : State) : (raise e s).err = errRegOf e := rfl
@[simp] theorem raise_out (e : ErrorEvent) (s : State) : (raise e s).out = { s.out with error := some e } := rfl
@[simp] theorem raise_statusRet (e : ErrorEvent) (s : State) : (raise e s).statusRet = s.statusRet := rfl
@[simp] theorem raise_inputs (e : ErrorEvent) (s : State) : (raise e s).inputs = s.inputs := rfl

@[simp] theorem takeInput_cfg (s : State) : (takeInput s).cfg = s.cfg := rfl
@[simp] theorem takeInput_accKind (s : State) : (takeInput s).accKind = s.accKind := rfl
@[simp] theorem takeInput_accLen (s : State) : (takeInput s).accLen = s.accLen := rfl
@[simp] theorem takeInput_accBuf (s : State) : (takeInput s).accBuf = s.accBuf := rfl
@[simp] theorem takeInput_raNext (s : State) : (takeInput s).raNext = s.raNext := rfl
@[simp] theorem takeInput_raGrid (s : State) : (takeInput s).raGrid = s.raGrid := rfl
@[simp] theorem takeInput_err (s : State) : (takeInput s).err = s.err := rfl
@[simp] theorem takeInput_out (s : State) : (takeInput s).out = s.out := rfl
@[simp] theorem takeInput_statusRet (s : State) : (takeInput s).statusRet = s.statusRet := rfl
@[simp] theorem takeInput_inputs (s : State) : (takeInput s).inputs = s.inputs.tail := rfl

@[simp] theorem withInputs_cfg (rs : List Request) (s : State) : (withInputs rs s).cfg = s.cfg := rfl
@[simp] theorem withInputs_accKind (rs : List Request) (s : State) : (withInputs rs s).accKind = s.accKind := rfl
@[simp] theorem withInputs_accLen (rs : List Request) (s : State) : (withInputs rs s).accLen = s.accLen := rfl
@[simp] theorem withInputs_accBuf (rs : List Request) (s : State) : (withInputs rs s).accBuf = s.accBuf := rfl
@[simp] theorem withInputs_raNext (rs : List Request) (s : State) : (withInputs rs s).raNext = s.raNext := rfl
@[simp] theorem withInputs_raGrid (rs : List Request) (s : State) : (withInputs rs s).raGrid = s.raGrid := rfl
@[simp] theorem withInputs_err (rs : List Request) (s : State) : (withInputs rs s).err = s.err := rfl
@[simp] theorem withInputs_out (rs : List Request) (s : State) : (withInputs rs s).out = s.out := rfl
@[simp] theorem withInputs_statusRet (rs : List Request) (s : State) : (withInputs rs s).statusRet = s.statusRet := rfl
@[simp] theorem withInputs_inputs (rs : List Request) (s : State) : (withInputs rs s).inputs = rs := rfl

@[simp] theorem afterReset_cfg (c : Config) : (State.afterReset c).cfg = some c := rfl
@[simp] theorem reset_eq : State.reset = State.afterReset (defaultConfig .single leastTileMap) := rfl

end Sys2Proof.Machine
end

