-- ==== Sys2Proof/Laws/Memory.lean ====
section
/-! SUPPORT. The frame buffer: every write keeps the canonical form, a read after a write gives the bytes written, and a write leaves
every other offset alone. -/

namespace Sys2Proof.Machine

@[simp] theorem cellsFrom_nil (off : Nat) : cellsFrom off [] = [] := rfl

theorem cellsFrom_fst (off : Nat) (bs : List Byte) : (cellsFrom off bs).map (·.1) = List.range' off bs.length := by
  induction bs generalizing off with
  | nil => rfl
  | cons b bs ih => simp [cellsFrom, ih, List.range'_succ]

@[simp] theorem cellsFrom_snd (off : Nat) (bs : List Byte) : (cellsFrom off bs).map (·.2) = bs := by
  induction bs generalizing off with
  | nil => rfl
  | cons b bs ih => simp [cellsFrom, ih]

@[simp] theorem cellsFrom_length (off : Nat) (bs : List Byte) : (cellsFrom off bs).length = bs.length := by
  have h := congrArg List.length (cellsFrom_snd off bs)
  rwa [List.length_map] at h

theorem cellsFrom_append (off : Nat) (bs cs : List Byte) :
    cellsFrom off (bs ++ cs) = cellsFrom off bs ++ cellsFrom (off + bs.length) cs := by
  induction bs generalizing off with
  | nil => simp
  | cons b bs ih => simp [cellsFrom, ih, Nat.add_assoc, Nat.add_comm 1]

/-- The offsets of consecutive cells. -/
theorem mem_cellsFrom_range {off : Nat} {bs : List Byte} {c : Host.Cell} (h : c ∈ cellsFrom off bs) :
    off ≤ c.1 ∧ c.1 < off + bs.length := by
  have h1 : c.1 ∈ (cellsFrom off bs).map (·.1) := List.mem_map_of_mem h
  rw [cellsFrom_fst] at h1
  simpa [List.mem_range'_1] using h1

theorem cellsFrom_wf (off : Nat) (bs : List Byte) : (cellsFrom off bs).Pairwise (fun x y => x.1 < y.1) := by
  induction bs generalizing off with
  | nil => simp
  | cons b bs ih =>
    refine List.pairwise_cons.2 ⟨fun c hc => ?_, ih _⟩
    have := mem_cellsFrom_range hc
    simp only; omega

/-- A memory is determined by its offsets and its bytes. -/
theorem memory_eq_cellsFrom {m : Memory} {off n : Nat} (h : m.map (·.1) = List.range' off n) :
    m = cellsFrom off (m.map (·.2)) := by
  induction m generalizing off n with
  | nil => rfl
  | cons c m ih =>
    cases n with
    | zero => simp at h
    | succ n =>
      simp only [List.map_cons, List.range'_succ, List.cons.injEq] at h
      simp only [List.map_cons, cellsFrom]
      rw [← ih h.2, ← h.1]

@[simp] theorem readByte_nil (a : Nat) : Memory.readByte [] a = none := rfl

theorem readByte_append (m m' : Memory) (a : Nat) :
    Memory.readByte (m ++ m') a = (Memory.readByte m a).or (Memory.readByte m' a) := by
  induction m with
  | nil => simp
  | cons c m ih =>
    simp only [List.cons_append, Memory.readByte]
    split <;> simp [ih]

theorem readByte_filter (m : Memory) (p : Host.Cell → Bool) (a : Nat) (q : Bool) (hp : ∀ c : Host.Cell, c.1 = a → p c = q) :
    Memory.readByte (m.filter p) a = if q then Memory.readByte m a else none := by
  induction m with
  | nil => simp
  | cons c m ih =>
    by_cases hc : c.1 = a
    · have hpc := hp c hc
      cases q <;> simp_all [Memory.readByte]
    · by_cases hpc : p c = true <;> simp [Memory.readByte, hc, hpc, ih]

theorem readByte_cellsFrom (off : Nat) (bs : List Byte) (a : Nat) :
    Memory.readByte (cellsFrom off bs) a = if off ≤ a then bs[a - off]? else none := by
  induction bs generalizing off with
  | nil => simp
  | cons b bs ih =>
    simp only [cellsFrom, Memory.readByte, ih]
    rcases Nat.lt_trichotomy off a with h | h | h
    · have e : a - off = (a - (off + 1)) + 1 := by omega
      rw [if_neg (by omega), if_pos (by omega), if_pos (by omega), e, List.getElem?_cons_succ]
    · subst h; simp
    · rw [if_neg (by omega), if_neg (by omega), if_neg (by omega)]

/-- Read after write, and everywhere else: what a byte of the buffer is after a write. -/
theorem readByte_write (m : Memory) (off : Nat) (bs : List Byte) (a : Nat) :
    (m.write off bs).readByte a = if off ≤ a ∧ a < off + bs.length then bs[a - off]? else m.readByte a := by
  rw [Memory.write, readByte_append, readByte_append, readByte_cellsFrom,
    readByte_filter m _ a (decide (a < off)) (by rintro c rfl; rfl),
    readByte_filter m _ a (decide (off + bs.length ≤ a)) (by rintro c rfl; rfl)]
  by_cases h1 : a < off
  · have h2 : ¬ off ≤ a := by omega
    have h3 : ¬ off + bs.length ≤ a := by omega
    simp [h1, h2, h3]
  · by_cases h2 : a < off + bs.length
    · have h3 : off ≤ a := by omega
      have h4 : ¬ off + bs.length ≤ a := by omega
      have h5 : a - off < bs.length := by omega
      simp [h1, h2, h3, h4, h5]
    · have h3 : off ≤ a := by omega
      have h4 : off + bs.length ≤ a := by omega
      have h5 : bs.length ≤ a - off := by omega
      simp [h1, h2, h3, h4, h5]

/-- Every write keeps the canonical form. -/
theorem write_wf {m : Memory} (off : Nat) (bs : List Byte) (h : m.wf) : (m.write off bs).wf := by
  unfold Memory.write
  refine List.pairwise_append.2 ⟨h.filter _, List.pairwise_append.2 ⟨cellsFrom_wf off bs, h.filter _, ?_⟩, ?_⟩
  · intro x hx y hy
    have := mem_cellsFrom_range hx
    have := (List.mem_filter.1 hy).2
    simp only [decide_eq_true_eq] at this
    omega
  · intro x hx y hy
    have hx := (List.mem_filter.1 hx).2
    simp only [decide_eq_true_eq] at hx
    rcases List.mem_append.1 hy with hy | hy
    · have := mem_cellsFrom_range hy
      omega
    · have := (List.mem_filter.1 hy).2
      simp only [decide_eq_true_eq] at this
      omega

theorem nil_wf : Memory.wf [] := List.Pairwise.nil

/-- Appending to a buffer that holds exactly the offsets below `off`. -/
theorem write_at_end (bs cs : List Byte) : (cellsFrom 0 bs).write bs.length cs = cellsFrom 0 (bs ++ cs) := by
  have h1 : (cellsFrom 0 bs).filter (fun c => decide (c.1 < bs.length)) = cellsFrom 0 bs := by
    refine List.filter_eq_self.2 fun c hc => ?_
    have := mem_cellsFrom_range hc
    simp only [decide_eq_true_eq]; omega
  have h2 : (cellsFrom 0 bs).filter (fun c => decide (bs.length + cs.length ≤ c.1)) = [] := by
    refine List.filter_eq_nil_iff.2 fun c hc => ?_
    have := mem_cellsFrom_range hc
    simp only [decide_eq_true_eq]; omega
  rw [Memory.write, h1, h2, List.append_nil, cellsFrom_append, Nat.zero_add]

/-- Reading the whole of a buffer that holds exactly the offsets below its length. -/
theorem readBytes_whole (bs : List Byte) : (cellsFrom 0 bs).readBytes 0 bs.length = some bs := by
  have h1 : (cellsFrom 0 bs).filter (fun c => decide (0 ≤ c.1) && decide (c.1 < 0 + bs.length)) = cellsFrom 0 bs := by
    refine List.filter_eq_self.2 fun c hc => ?_
    have := mem_cellsFrom_range hc
    simp only [Nat.zero_le, decide_true, Bool.true_and, decide_eq_true_eq]; omega
  simp only [Memory.readBytes, h1, cellsFrom_fst, cellsFrom_snd, if_true]

/-- A buffer that is in order is the cells of its bytes. -/
theorem BufferOk.cells {s : State} (h : BufferOk s) : s.accBuf = cellsFrom 0 (bufferBytes s) :=
  memory_eq_cellsFrom (by rw [h.2, List.range_eq_range'])

theorem BufferOk.length {s : State} (h : BufferOk s) : (bufferBytes s).length = s.accLen := by
  simpa [bufferBytes] using congrArg List.length h.2

theorem bufferOk_of_cells {s : State} {bs : List Byte} (h : s.accBuf = cellsFrom 0 bs) (hl : s.accLen = bs.length) :
    BufferOk s :=
  ⟨h ▸ cellsFrom_wf 0 bs, by rw [h, hl, cellsFrom_fst, List.range_eq_range']⟩

theorem bufferBytes_of_cells {s : State} {bs : List Byte} (h : s.accBuf = cellsFrom 0 bs) : bufferBytes s = bs := by
  rw [bufferBytes, h, cellsFrom_snd]

end Sys2Proof.Machine
end

