-- ==== Sys2Proof/Laws/Ops.lean ====
section
/-! SUPPORT. For each shared operation, once, everything it can do. -/

namespace Sys2Proof.Machine

@[simp] theorem andThen_next {α β : Type} (a : α) (k : α → Result β) : andThen (.next a) k = k a := rfl
@[simp] theorem andThen_fault {α β : Type} (f : Fault) (k : α → Result β) : andThen (.fault f) k = .fault f := rfl
@[simp] theorem andThen_refused {α β : Type} (r : Refusal) (k : α → Result β) : andThen (.refused r) k = .refused r := rfl

theorem andThen_eq_next {α β : Type} {r : Result α} {k : α → Result β} {b : β} :
    andThen r k = .next b ↔ ∃ a, r = .next a ∧ k a = .next b := by
  cases r <;> simp

theorem withConfig_of_ready {s : State} {cfg : Config} (h : Ready s cfg) (k : Config → Result State) :
    withConfig s k = k cfg := by
  simp [withConfig, h.1, h.2]

theorem withConfig_eq_next {s t : State} {k : Config → Result State} :
    withConfig s k = .next t ↔ ∃ cfg, Ready s cfg ∧ k cfg = .next t := by
  unfold withConfig Ready
  split
  · next h => simp [h]
  · next cfg h => by_cases hc : configOk cfg = true <;> simp [h, hc]

theorem bufWrite_eq_next {cfg : Config} {off : Nat} {bs : List Byte} {s t : State} :
    bufWrite cfg off bs s = .next t ↔
      off + bs.length ≤ bufCap cfg ∧ t = { s with accBuf := s.accBuf.write off bs } := by
  unfold bufWrite
  split
  · simp; omega
  · simp only [Host.Outcome.next.injEq, eq_comm (a := t)]
    constructor
    · intro h; exact ⟨by omega, h⟩
    · exact fun h => h.2

/-- Reading a buffer that is in order, whole. -/
theorem bufRead_whole {s : State} (h : BufferOk s) : bufRead s 0 s.accLen = .next (bufferBytes s) := by
  have h1 : s.accBuf.readBytes 0 s.accLen = some (bufferBytes s) := by
    have := readBytes_whole (bufferBytes s)
    rwa [← h.cells, h.length] at this
  simp [bufRead, h1]

theorem gridRead_eq_next {s : State} {g : List TileId} :
    gridRead s = .next g ↔ s.raGrid.length = 80 ∧ g = s.raGrid := by
  unfold gridRead gridCells
  split <;> simp_all [eq_comm]

/-- Taking one part (R111 to R114). -/
theorem partStep_eq_next {x : Byte} {g : List TileId} {s t : State} :
    partStep x g s = .next t ↔
      (x ≠ partIndexByte s.raNext ∧ t = raClear (raise (.outOfSequencePart s.raNext x) s)) ∨
      (x = partIndexByte s.raNext ∧ s.raNext = 3 ∧ (s.raGrid ++ g).length = 80 ∧
        t = raClear (emit (.gridFrame (s.raGrid ++ g)) { s with raGrid := s.raGrid ++ g })) ∨
      (x = partIndexByte s.raNext ∧ s.raNext ≠ 3 ∧
        t = { s with raGrid := s.raGrid ++ g, raNext := s.raNext + 1 }) := by
  unfold partStep
  by_cases hx : x = partIndexByte s.raNext
  · by_cases h3 : s.raNext = 3
    · simp only [hx, h3, ne_eq, not_true_eq_false, if_false, if_true, andThen_eq_next, gridRead_eq_next]
      constructor
      · rintro ⟨g', ⟨hl, rfl⟩, h⟩
        exact .inr (.inl ⟨trivial, trivial, hl, (by simpa using h.symm)⟩)
      · rintro (⟨h, -⟩ | ⟨-, -, hl, rfl⟩ | ⟨-, h, -⟩)
        · exact h.elim
        · exact ⟨_, ⟨hl, rfl⟩, rfl⟩
        · exact h.elim
    · simp [hx, h3, eq_comm]
  · simp [hx, eq_comm]

theorem partReceive_eq_next {cfg : Config} {body : List Byte} {s t : State} :
    partReceive cfg body s = .next t ↔
      ∃ x, body.drop 40 = [x] ∧ partStep x (tokens cfg body 20) s = .next t := by
  unfold partReceive
  split
  · next x h => simp [h]
  · next h =>
    constructor
    · intro h'; cases h'
    · rintro ⟨x, hx, -⟩; exact absurd hx (h x)

theorem parseScreen_eq_next {cfg : Config} {frame : List Byte} {s t : State} :
    parseScreen cfg frame s = .next t ↔
      ∃ s0 s1 s2 d f, frame.drop 161 = [s0, s1, s2, d, f] ∧
        t = emit (.screenFrame (screenEvent (tokens cfg (frame.drop 1) 80) s0 s1 s2 d f)) (checkNumeric s0 s1 s2 d s) := by
  unfold parseScreen
  split
  · next s0 s1 s2 d f h =>
    simp only [h, Host.Outcome.next.injEq]
    constructor
    · rintro rfl; exact ⟨_, _, _, _, _, rfl, rfl⟩
    · rintro ⟨_, _, _, _, _, h1, rfl⟩; cases h1; rfl
  · next h =>
    constructor
    · intro h'; cases h'
    · rintro ⟨s0, s1, s2, d, f, hx, -⟩; exact absurd hx (h _ _ _ _ _)

/-- Everything a dispatch can do (R96). -/
theorem dispatch_eq_next {cfg : Config} {k : FrameKind} {frame : List Byte} {s t : State} :
    dispatch cfg k frame s = .next t ↔
      (k = .screen ∧ cfg.rev = .single ∧ parseScreen cfg frame s = .next t) ∨
      (k = .screen ∧ cfg.rev = .multi ∧ partReceive cfg ((frame.drop cfg.partOff).take 41) s = .next t) ∨
      (k = .save ∧ t = emit (.saveBlob (frame.drop 1)) s) ∨
      (k = .load ∧ t = emit (.loadRequest (frame.drop 1)) s) := by
  cases k <;> cases h : cfg.rev <;> simp [dispatch, h, parseSave, parseLoad, eq_comm]

/-- The state a completed frame is dispatched from (R86, R87). -/
def atDispatch (s : State) : State := accClear (clearErr (beginOp s))

/-- The state a chunk that leaves the frame short is appended in (R84, R86). -/
def appended (k : FrameKind) (c : List Byte) (s : State) : State :=
  { clearErr (beginOp s) with
    accKind := some k, accLen := s.accLen + c.length, accBuf := s.accBuf.write s.accLen c }

/-- The length check of a chunk of a known kind, from the state DELIVER starts it in. -/
theorem accept_beginOp (cfg : Config) (k : FrameKind) (c : List Byte) (s : State) :
    accept cfg k c (beginOp s) =
      if lenOf cfg k < s.accLen + c.length then
        .next (accClear (raise (.frameOverflow (lenOf cfg k) (s.accLen + c.length)) (beginOp s)))
      else
        andThen (bufWrite cfg s.accLen c (beginOp s))
          (fun s1 => complete cfg k { s1 with accKind := some k, accLen := s.accLen + c.length }) :=
  rfl

/-- A chunk that fits is in the buffer; the frame is then complete, or pending. -/
theorem complete_appended (cfg : Config) (k : FrameKind) (c : List Byte) (s : State) :
    complete cfg k
        { beginOp s with accKind := some k, accLen := s.accLen + c.length, accBuf := s.accBuf.write s.accLen c } =
      if s.accLen + c.length = lenOf cfg k then
        andThen (bufRead (appended k c s) 0 (lenOf cfg k)) (fun frame => dispatch cfg k frame (atDispatch s))
      else .next (appended k c s) :=
  rfl

theorem accept_fits {cfg : Config} {s : State} {k : FrameKind} {c : List Byte} (hl : s.accLen + c.length ≤ lenOf cfg k) :
    accept cfg k c (beginOp s) =
      if s.accLen + c.length = lenOf cfg k then
        andThen (bufRead (appended k c s) 0 (lenOf cfg k)) (fun frame => dispatch cfg k frame (atDispatch s))
      else .next (appended k c s) := by
  have hw : bufWrite cfg s.accLen c (beginOp s) = .next { beginOp s with accBuf := s.accBuf.write s.accLen c } :=
    bufWrite_eq_next.2 ⟨hl.trans (lenOf_le_bufCap cfg k), rfl⟩
  rw [accept_beginOp, if_neg (by omega), hw, andThen_next, ← complete_appended]

/-- DELIVER under a latched configuration. -/
theorem deliver_ready {cfg : Config} {s : State} (hr : Ready s cfg) (b : Byte) (rest : List Byte) :
    deliver (b :: rest) s =
      match kindFor s b with
      | none => .next (raise (.unknownFrameKind b) (beginOp s))
      | some k => accept cfg k (b :: rest) (beginOp s) :=
  withConfig_of_ready hr _

/-- Everything a DELIVER that answers a next state can have done: the rows of the transition table (R89). -/
theorem deliver_cases {c : List Byte} {s t : State} (h : deliver c s = .next t) :
    ∃ cfg b rest, c = b :: rest ∧ Ready s cfg ∧
      ((kindFor s b = none ∧ t = raise (.unknownFrameKind b) (beginOp s)) ∨
        ∃ k, kindFor s b = some k ∧
          ((lenOf cfg k < s.accLen + c.length ∧
              t = accClear (raise (.frameOverflow (lenOf cfg k) (s.accLen + c.length)) (beginOp s))) ∨
            (s.accLen + c.length < lenOf cfg k ∧ t = appended k c s) ∨
            (s.accLen + c.length = lenOf cfg k ∧
              ∃ frame, bufRead (appended k c s) 0 (lenOf cfg k) = .next frame ∧
                dispatch cfg k frame (atDispatch s) = .next t))) := by
  cases c with
  | nil => cases h
  | cons b rest =>
    obtain ⟨cfg, hr, -⟩ := withConfig_eq_next.1 h
    rw [deliver_ready hr] at h
    refine ⟨cfg, b, rest, rfl, hr, ?_⟩
    cases hk : kindFor s b with
    | none =>
      rw [hk] at h
      exact .inl ⟨rfl, by simpa using h.symm⟩
    | some k =>
      rw [hk] at h
      refine .inr ⟨k, rfl, ?_⟩
      rcases Nat.lt_or_ge (lenOf cfg k) (s.accLen + (b :: rest).length) with hl | hl
      · simp only [accept_beginOp, if_pos hl, Host.Outcome.next.injEq] at h
        exact .inl ⟨hl, h.symm⟩
      · simp only [accept_fits hl] at h
        split at h
        · next he =>
          obtain ⟨frame, hf, h⟩ := andThen_eq_next.1 h
          exact .inr (.inr ⟨he, frame, hf, h⟩)
        · next he => exact .inr (.inl ⟨by omega, by simpa using h.symm⟩)

theorem deliver_unknown {cfg : Config} {s : State} {b : Byte} {rest : List Byte} (hr : Ready s cfg)
    (hk : kindFor s b = none) : deliver (b :: rest) s = .next (raise (.unknownFrameKind b) (beginOp s)) := by
  rw [deliver_ready hr, hk]

theorem deliver_overflow {cfg : Config} {s : State} {k : FrameKind} {b : Byte} {rest : List Byte} (hr : Ready s cfg)
    (hk : kindFor s b = some k) (hl : lenOf cfg k < s.accLen + (b :: rest).length) :
    deliver (b :: rest) s =
      .next (accClear (raise (.frameOverflow (lenOf cfg k) (s.accLen + (b :: rest).length)) (beginOp s))) := by
  rw [deliver_ready hr, hk]
  simp only [accept_beginOp, if_pos hl]

theorem deliver_segment {cfg : Config} {s : State} {k : FrameKind} {b : Byte} {rest : List Byte} (hr : Ready s cfg)
    (hk : kindFor s b = some k) (hl : s.accLen + (b :: rest).length < lenOf cfg k) :
    deliver (b :: rest) s = .next (appended k (b :: rest) s) := by
  rw [deliver_ready hr, hk]
  simp only [accept_fits hl.le, if_neg hl.ne]

/-- Every offset of the buffer after a chunk has been appended: the old bytes, the chunk's, and nothing beyond. -/
theorem bufByte_appended (k : FrameKind) (bs : List Byte) (s : State) (a : Nat) :
    bufByte (appended k bs s) a =
      if a < s.accLen then bufByte s a else if a < s.accLen + bs.length then bs[a - s.accLen]? else none := by
  show (if a < s.accLen + bs.length then (s.accBuf.write s.accLen bs).readByte a else none) = _
  rw [readByte_write, bufByte]
  by_cases h1 : a < s.accLen
  · have h2 : a < s.accLen + bs.length := by omega
    have h3 : ¬ s.accLen ≤ a := by omega
    simp only [h1, h2, h3, false_and, if_true, if_false]
  · have h3 : s.accLen ≤ a := by omega
    by_cases h2 : a < s.accLen + bs.length <;> simp only [h1, h2, h3, and_self, if_true, if_false]

/-- The buffer once a chunk has been appended to a buffer in order: the old bytes, then the chunk. -/
theorem appended_cells {s : State} (h : BufferOk s) (k : FrameKind) (c : List Byte) :
    (appended k c s).accBuf = cellsFrom 0 (bufferBytes s ++ c) := by
  rw [← write_at_end, h.length, ← h.cells]
  rfl

theorem appended_bufferOk {s : State} (h : BufferOk s) (k : FrameKind) (c : List Byte) : BufferOk (appended k c s) :=
  bufferOk_of_cells (appended_cells h k c) (by simp [appended, h.length])

theorem appended_bytes {s : State} (h : BufferOk s) (k : FrameKind) (c : List Byte) :
    bufferBytes (appended k c s) = bufferBytes s ++ c :=
  bufferBytes_of_cells (appended_cells h k c)

theorem appended_read {cfg : Config} {s : State} {k : FrameKind} {c : List Byte} (h : BufferOk s)
    (hl : s.accLen + c.length = lenOf cfg k) :
    bufRead (appended k c s) 0 (lenOf cfg k) = .next (bufferBytes s ++ c) := by
  have := bufRead_whole (appended_bufferOk h k c)
  rwa [appended_bytes h, show (appended k c s).accLen = lenOf cfg k from hl] at this

theorem deliver_complete {cfg : Config} {s : State} {k : FrameKind} {b : Byte} {rest : List Byte} (hr : Ready s cfg)
    (hb : BufferOk s) (hk : kindFor s b = some k) (hl : s.accLen + (b :: rest).length = lenOf cfg k) :
    deliver (b :: rest) s = dispatch cfg k (bufferBytes s ++ b :: rest) (atDispatch s) := by
  rw [deliver_ready hr, hk]
  simp only [accept_fits hl.le, if_pos hl, appended_read hb hl, andThen_next]

/-- Every instruction is RESET, STATUS or the DELIVER of its wire bytes. -/
theorem exec_chunk {i : Instr} (h : wireBytes i ≠ []) (s : State) : exec i s = deliver (wireBytes i) s := by
  cases i <;> first | rfl | exact absurd rfl h

/-- Everything an instruction that answers a next state can have done. -/
theorem exec_cases {i : Instr} {s t : State} (h : exec i s = .next t) :
    (∃ c, i = .reset c ∧ configOk c = true ∧
        t = { clearErr (raClear (accClear (beginOp s))) with cfg := some c }) ∨
      (i = .status ∧ (∃ cfg, Ready s cfg) ∧ t = { beginOp s with statusRet := some s.err }) ∨
      (i ≠ .status ∧ (∀ c, i ≠ .reset c) ∧ deliver (wireBytes i) s = .next t) := by
  cases i with
  | reset c =>
    simp only [exec, execReset] at h
    split at h
    · next hc => exact .inl ⟨c, rfl, hc, by simpa using h.symm⟩
    · cases h
  | status =>
    simp only [exec, execStatus, withConfig_eq_next] at h
    obtain ⟨cfg, hr, h⟩ := h
    exact .inr (.inl ⟨rfl, ⟨cfg, hr⟩, by simpa using h.symm⟩)
  | deliver c => exact .inr (.inr ⟨by simp, by simp, h⟩)
  | frameScreen ts s0 s1 s2 d l => exact .inr (.inr ⟨by simp, by simp, h⟩)
  | framePart fl ts x => exact .inr (.inr ⟨by simp, by simp, h⟩)
  | frameSave p => exact .inr (.inr ⟨by simp, by simp, h⟩)
  | frameLoad p => exact .inr (.inr ⟨by simp, by simp, h⟩)
  | frameUnknown b r => exact .inr (.inr ⟨by simp, by simp, h⟩)

end Sys2Proof.Machine
end

