-- ==== Sys2Proof/Laws/PerInstr.lean ====
section
/-! SUPPORT. A family of statements, one lemma per constructor: what the wire bytes of a well-formed instruction are (30_encoding.md
R60, R62). -/

namespace Sys2Proof.Laws.Wire

/-- The frame kind a row's marker selects; the host operations and FRAME_UNKNOWN have none (R60). -/
def rowKind : Instr → Option FrameKind
  | .reset _ => none
  | .deliver _ => none
  | .status => none
  | .frameScreen _ _ _ _ _ _ => some .screen
  | .framePart _ _ _ => some .screen
  | .frameSave _ => some .save
  | .frameLoad _ => some .load
  | .frameUnknown _ _ => none

/-- R60, R62: under a well-formed configuration, the wire bytes of a well-formed frame row start with its kind's marker and are
exactly `LEN` of the kind long, those of FRAME_UNKNOWN start with no marker, DELIVER has at least one byte (R82), and RESET and
STATUS have none (R58). -/
def Statement (i : Instr) : Prop :=
  ∀ cfg : Config, configOk cfg = true → i.wellFormed cfg = true →
    (∀ k, rowKind i = some k → (wireBytes i).head? = some (marker k) ∧ (wireBytes i).length = lenOf cfg k) ∧
    (∀ b rest, i = .frameUnknown b rest → (wireBytes i).head?.bind classify = none ∧ wireBytes i ≠ []) ∧
    (∀ c, i = .deliver c → wireBytes i ≠ []) ∧
    ((i = .status ∨ ∃ c, i = .reset c) → wireBytes i = [])

theorem reset (c : Config) : Statement (.reset c) := by
  intro cfg _ _
  simp [rowKind, wireBytes]

theorem deliver (c : List Byte) : Statement (.deliver c) := by
  intro cfg _ hw
  simp [Instr.wellFormed] at hw
  simp [rowKind, wireBytes, hw]

theorem status : Statement .status := by
  intro cfg _ _
  simp [rowKind, wireBytes]

theorem frameScreen (tokens : List Token) (s0 s1 s2 d l : Byte) : Statement (.frameScreen tokens s0 s1 s2 d l) := by
  intro cfg hc hw
  simp only [Instr.wellFormed, Bool.and_eq_true, decide_eq_true_eq] at hw
  have hl := (screenLength_of_configOk hc).1 hw.1
  simp [rowKind, wireBytes, lenOf, hl, hw.2]

theorem framePart (filler : List Byte) (tokens : List Token) (x : Byte) : Statement (.framePart filler tokens x) := by
  intro cfg hc hw
  simp only [Instr.wellFormed, Bool.and_eq_true, decide_eq_true_eq] at hw
  have hl := (screenLength_of_configOk hc).2 hw.1.1
  simp [rowKind, wireBytes, lenOf, hl.1, hw.2]
  omega

theorem frameSave (payload : List Byte) : Statement (.frameSave payload) := by
  intro cfg _ hw
  simp only [Instr.wellFormed, decide_eq_true_eq] at hw
  simp [rowKind, wireBytes, lenOf, hw]

theorem frameLoad (payload : List Byte) : Statement (.frameLoad payload) := by
  intro cfg _ hw
  simp only [Instr.wellFormed, decide_eq_true_eq] at hw
  simp [rowKind, wireBytes, lenOf, hw]

theorem frameUnknown (first : Byte) (rest : List Byte) : Statement (.frameUnknown first rest) := by
  intro cfg _ hw
  simp only [Instr.wellFormed, decide_eq_true_eq] at hw
  simp [rowKind, wireBytes, hw]

end Sys2Proof.Laws.Wire
end

