-- ==== Sys2Proof/Laws/Units.lean ====
section
/-! SUPPORT. What the parser, the reassembler and a whole DELIVER leave unchanged, and what they answer. -/

namespace Sys2Proof.Machine

@[simp] theorem checkNumeric_cfg (s0 s1 s2 d : Byte) (s : State) : (checkNumeric s0 s1 s2 d s).cfg = s.cfg := by
  unfold checkNumeric; split <;> rfl
@[simp] theorem checkNumeric_accKind (s0 s1 s2 d : Byte) (s : State) : (checkNumeric s0 s1 s2 d s).accKind = s.accKind := by
  unfold checkNumeric; split <;> rfl
@[simp] theorem checkNumeric_accLen (s0 s1 s2 d : Byte) (s : State) : (checkNumeric s0 s1 s2 d s).accLen = s.accLen := by
  unfold checkNumeric; split <;> rfl
@[simp] theorem checkNumeric_accBuf (s0 s1 s2 d : Byte) (s : State) : (checkNumeric s0 s1 s2 d s).accBuf = s.accBuf := by
  unfold checkNumeric; split <;> rfl
@[simp] theorem checkNumeric_raNext (s0 s1 s2 d : Byte) (s : State) : (checkNumeric s0 s1 s2 d s).raNext = s.raNext := by
  unfold checkNumeric; split <;> rfl
@[simp] theorem checkNumeric_raGrid (s0 s1 s2 d : Byte) (s : State) : (checkNumeric s0 s1 s2 d s).raGrid = s.raGrid := by
  unfold checkNumeric; split <;> rfl
@[simp] theorem checkNumeric_statusRet (s0 s1 s2 d : Byte) (s : State) :
    (checkNumeric s0 s1 s2 d s).statusRet = s.statusRet := by
  unfold checkNumeric; split <;> rfl
@[simp] theorem checkNumeric_inputs (s0 s1 s2 d : Byte) (s : State) : (checkNumeric s0 s1 s2 d s).inputs = s.inputs := by
  unfold checkNumeric; split <;> rfl

/-- The error a screen's numeric fields give, if any (R103). -/
def numericError (s0 s1 s2 d : Byte) : Option ErrorEvent :=
  if scoreValid s0 s1 s2 && difficultyValid d then none
  else some (.malformedNumericField (fieldMask (scoreValid s0 s1 s2) (difficultyValid d)))

/-- The error register after an operation that cleared it and then raised `e`, or nothing. -/
def errAfter : Option ErrorEvent → ErrReg
  | none => ErrReg.clear
  | some e => errRegOf e

theorem checkNumeric_cleared (s0 s1 s2 d : Byte) {s : State} (he : s.err = ErrReg.clear) (ho : s.out.error = none) :
    (checkNumeric s0 s1 s2 d s).err = errAfter (numericError s0 s1 s2 d) ∧
      (checkNumeric s0 s1 s2 d s).out = { s.out with error := numericError s0 s1 s2 d } := by
  unfold checkNumeric numericError
  split
  · refine ⟨he, ?_⟩
    rw [← ho]
  · exact ⟨rfl, rfl⟩

@[simp] theorem atDispatch_cfg (s : State) : (atDispatch s).cfg = s.cfg := rfl
@[simp] theorem atDispatch_accKind (s : State) : (atDispatch s).accKind = none := rfl
@[simp] theorem atDispatch_accLen (s : State) : (atDispatch s).accLen = 0 := rfl
@[simp] theorem atDispatch_accBuf (s : State) : (atDispatch s).accBuf = [] := rfl
@[simp] theorem atDispatch_raNext (s : State) : (atDispatch s).raNext = s.raNext := rfl
@[simp] theorem atDispatch_raGrid (s : State) : (atDispatch s).raGrid = s.raGrid := rfl
@[simp] theorem atDispatch_err (s : State) : (atDispatch s).err = ErrReg.clear := rfl
@[simp] theorem atDispatch_out (s : State) : (atDispatch s).out = OutputRecord.empty := rfl
@[simp] theorem atDispatch_statusRet (s : State) : (atDispatch s).statusRet = none := rfl
@[simp] theorem atDispatch_inputs (s : State) : (atDispatch s).inputs = s.inputs := rfl

/-- What every dispatch leaves unchanged. -/
structure SameShell (s t : State) : Prop where
  cfg       : t.cfg = s.cfg
  accKind   : t.accKind = s.accKind
  accLen    : t.accLen = s.accLen
  accBuf    : t.accBuf = s.accBuf
  statusRet : t.statusRet = s.statusRet
  inputs    : t.inputs = s.inputs

theorem dispatch_sameShell {cfg : Config} {k : FrameKind} {frame : List Byte} {s t : State}
    (h : dispatch cfg k frame s = .next t) : SameShell s t := by
  rcases dispatch_eq_next.1 h with ⟨-, -, h⟩ | ⟨-, -, h⟩ | ⟨-, rfl⟩ | ⟨-, rfl⟩
  · obtain ⟨s0, s1, s2, d, f, -, rfl⟩ := parseScreen_eq_next.1 h
    constructor <;> simp
  · obtain ⟨x, -, h⟩ := partReceive_eq_next.1 h
    rcases partStep_eq_next.1 h with ⟨-, rfl⟩ | ⟨-, -, -, rfl⟩ | ⟨-, -, rfl⟩ <;> constructor <;> rfl
  · constructor <;> rfl
  · constructor <;> rfl

/-- What a dispatch can put in the record and the registers it may change, from the state DELIVER dispatches in. -/
inductive DispatchEffect (cfg : Config) (s t : State) : FrameKind → Prop where
  | screen (e : ScreenEvent) (s0 s1 s2 d : Byte) (hrev : cfg.rev = .single)
      (hgrid : e.grid.length = 80)
      (hscore : e.score = scoreOf s0 s1 s2) (hsv : e.scoreValid = scoreValid s0 s1 s2)
      (hdiff : e.difficulty = difficultyOf d) (hdv : e.difficultyValid = difficultyValid d)
      (hlose : e.lose = true → e.grid = List.replicate 80 .air)
      (hout : t.out = { frame := some (.screenFrame e), error := numericError s0 s1 s2 d })
      (herr : t.err = errAfter (numericError s0 s1 s2 d))
      (hnext : t.raNext = s.raNext) (hcells : t.raGrid = s.raGrid) : DispatchEffect cfg s t .screen
  | outOfSequence (x : Byte) (hrev : cfg.rev = .multi) (hx : x ≠ partIndexByte s.raNext)
      (hout : t.out = { frame := none, error := some (.outOfSequencePart s.raNext x) })
      (herr : t.err = errRegOf (.outOfSequencePart s.raNext x))
      (hnext : t.raNext = 0) (hcells : t.raGrid = []) : DispatchEffect cfg s t .screen
  | lastPart (g : List TileId) (hrev : cfg.rev = .multi) (h3 : s.raNext = 3) (hg : g.length = 80)
      (hout : t.out = { frame := some (.gridFrame g), error := none }) (herr : t.err = ErrReg.clear)
      (hnext : t.raNext = 0) (hcells : t.raGrid = []) : DispatchEffect cfg s t .screen
  | part (g : List TileId) (hrev : cfg.rev = .multi) (h3 : s.raNext ≠ 3) (hg : g.length = 20)
      (hout : t.out = { frame := none, error := none }) (herr : t.err = ErrReg.clear)
      (hnext : t.raNext = s.raNext + 1) (hcells : t.raGrid = s.raGrid ++ g) : DispatchEffect cfg s t .screen
  | save (p : List Byte) (hout : t.out = { frame := some (.saveBlob p), error := none }) (herr : t.err = ErrReg.clear)
      (hnext : t.raNext = s.raNext) (hcells : t.raGrid = s.raGrid) : DispatchEffect cfg s t .save
  | load (p : List Byte) (hout : t.out = { frame := some (.loadRequest p), error := none }) (herr : t.err = ErrReg.clear)
      (hnext : t.raNext = s.raNext) (hcells : t.raGrid = s.raGrid) : DispatchEffect cfg s t .load

theorem screenEvent_grid_length {g : List TileId} (hg : g.length = 80) (s0 s1 s2 d f : Byte) :
    (screenEvent g s0 s1 s2 d f).grid.length = 80 := by
  unfold screenEvent
  cases loseOf f <;> simp [hg, gridCells]

theorem screenEvent_lose (g : List TileId) (s0 s1 s2 d f : Byte) :
    (screenEvent g s0 s1 s2 d f).lose = true → (screenEvent g s0 s1 s2 d f).grid = List.replicate 80 .air := by
  intro h
  simp only [screenEvent] at h ⊢
  rw [h]; rfl

/-- The inversion of a dispatch made by DELIVER. -/
theorem dispatch_effect {cfg : Config} {k : FrameKind} {frame : List Byte} {s t : State}
    (h : dispatch cfg k frame (atDispatch s) = .next t) : DispatchEffect cfg s t k := by
  rcases dispatch_eq_next.1 h with ⟨rfl, hr, h⟩ | ⟨rfl, hr, h⟩ | ⟨rfl, rfl⟩ | ⟨rfl, rfl⟩
  · obtain ⟨s0, s1, s2, d, f, hd, rfl⟩ := parseScreen_eq_next.1 h
    have hl : frame.length = 166 := by have := congrArg List.length hd; simp at this; omega
    have hg : (tokens cfg (frame.drop 1) 80).length = 80 := tokens_length cfg (by simp [hl])
    have hc := checkNumeric_cleared s0 s1 s2 d (s := atDispatch s) rfl rfl
    exact .screen (screenEvent (tokens cfg (frame.drop 1) 80) s0 s1 s2 d f) s0 s1 s2 d hr
      (screenEvent_grid_length hg ..) rfl rfl rfl rfl (screenEvent_lose _ _ _ _ _ _)
      (by rw [emit_out, hc.2]) (by rw [emit_err, hc.1]) (by simp) (by simp)
  · obtain ⟨x, hx, h⟩ := partReceive_eq_next.1 h
    rcases partStep_eq_next.1 h with ⟨hne, rfl⟩ | ⟨-, h3, hg, rfl⟩ | ⟨-, h3, rfl⟩
    · exact .outOfSequence x hr hne rfl rfl rfl rfl
    · exact .lastPart _ hr h3 hg rfl rfl rfl rfl
    · refine .part _ hr h3 (tokens_length cfg ?_) rfl rfl rfl rfl
      have := congrArg List.length hx
      simp at this
      simp; omega
  · exact .save _ rfl rfl rfl rfl
  · exact .load _ rfl rfl rfl rfl

/-- A dispatched frame of the right length is always taken, in a state whose grid store is in order. -/
theorem dispatch_total {cfg : Config} {k : FrameKind} {frame : List Byte} {s : State} (hc : configOk cfg = true)
    (hl : frame.length = lenOf cfg k) (hra : s.raGrid.length = 20 * s.raNext.val) :
    ∃ t, dispatch cfg k frame s = .next t := by
  have hs := screenLength_of_configOk hc
  cases k with
  | save => exact ⟨_, rfl⟩
  | load => exact ⟨_, rfl⟩
  | screen =>
    cases hr : cfg.rev with
    | single =>
      have h166 : frame.length = 166 := by rw [hl]; exact hs.1 hr
      have h5 : (frame.drop 161).length = 5 := by simp [h166]
      match hd : frame.drop 161, h5 with
      | [s0, s1, s2, d, f], _ =>
        exact ⟨_, dispatch_eq_next.2 (.inl ⟨rfl, hr, parseScreen_eq_next.2 ⟨s0, s1, s2, d, f, hd, rfl⟩⟩)⟩
    | multi =>
      have hlen : frame.length = cfg.partOff + 41 := by rw [hl]; exact (hs.2 hr).1
      have h1 : (((frame.drop cfg.partOff).take 41).drop 40).length = 1 := by simp [hlen]
      match hd : ((frame.drop cfg.partOff).take 41).drop 40, h1 with
      | [x], _ =>
        have hg : (tokens cfg ((frame.drop cfg.partOff).take 41) 20).length = 20 := tokens_length cfg (by simp [hlen])
        suffices h : ∃ t, partStep x (tokens cfg ((frame.drop cfg.partOff).take 41) 20) s = .next t by
          obtain ⟨t, ht⟩ := h
          exact ⟨t, dispatch_eq_next.2 (.inr (.inl ⟨rfl, hr, partReceive_eq_next.2 ⟨x, hd, ht⟩⟩))⟩
        by_cases hx : x = partIndexByte s.raNext
        · by_cases h3 : s.raNext = 3
          · refine ⟨_, partStep_eq_next.2 (.inr (.inl ⟨hx, h3, ?_, rfl⟩))⟩
            rw [List.length_append, hra, hg, h3]; rfl
          · exact ⟨_, partStep_eq_next.2 (.inr (.inr ⟨hx, h3, rfl⟩))⟩
        · exact ⟨_, partStep_eq_next.2 (.inl ⟨hx, rfl⟩)⟩

end Sys2Proof.Machine
end

