-- ==== Sys2Proof/Machine/Outbound.lean ====
section
/-! DEFINITION. The fixed outbound command strings of the wire contract (30_encoding.md R78). The core neither produces nor decodes
them, so no step uses them: they stand here as the constants an outbound writer must reproduce. -/

namespace Sys2Proof

/-- The four fixed outbound commands (R78). The `clock-` and `loading-` messages of R79 have fields the spec does not give. -/
inductive OutboundCommand where
  | controlRight
  | controlLeft
  | controlFire
  | loadApprove
  deriving DecidableEq, Repr

/-- The characters of a command before its padding (R78). -/
def OutboundCommand.text : OutboundCommand → String
  | .controlRight => "control-right"
  | .controlLeft => "control-left"
  | .controlFire => "control-fire"
  | .loadApprove => "load-approve"

/-- The length of a fixed command (R78). -/
def outboundLength : Nat := 23

/-- The bytes of a command: its ASCII text, left-justified, padded with `-` (0x2D) to 23 bytes (R78). -/
def outboundBytes (c : OutboundCommand) : List Byte :=
  let t := c.text.toList.map (fun ch => BitVec.ofNat 8 ch.toNat)
  t ++ List.replicate (outboundLength - t.length) 0x2D#8

end Sys2Proof
end

