-- ==== Sys2Proof/Tests/Slice0.lean ====
section
/-! SUPPORT. The model's own tests. Expected results are the vectors of spec/95_test_vectors.md (named V and P below) or are written
out from the encodings of spec/30_encoding.md; then a witness for the hypotheses of each obligation. -/

namespace Sys2Proof.Tests

open Sys2Proof Sys2Proof.Machine

-- One test after another: elaborated at the same time, so many kernel evaluations take too many threads.
set_option Elab.async false

/-! ### Helpers -/

/-- The outcome is a next state with a property. -/
def nextIs (o : Result State) (p : State → Bool) : Bool :=
  match o with
  | .next t => p t
  | .fault _ => false
  | .refused _ => false

/-- The outcome is this refusal. -/
def refusedAs (o : Result State) (r : Refusal) : Bool :=
  match o with
  | .next _ => false
  | .fault _ => false
  | .refused q => decide (q = r)

theorem exists_of_nextIs {o : Result State} {p : State → Bool} (h : nextIs o p = true) : ∃ t, o = .next t ∧ p t = true := by
  cases o with
  | next t => exact ⟨t, rfl, h⟩
  | fault f => cases h
  | refused r => cases h

/-- `n` copies of the bytes `a b`. -/
def pairs (n : Nat) (a b : Byte) : List Byte := (List.replicate n [a, b]).flatten

/-- The example tile table TM_EX of 95_test_vectors.md: "03" NormalStep, "20" Air, "a5" Monster. -/
def tmEx : List TileEntry := [⟨⟨0x30#8, 0x33#8⟩, 3#4⟩, ⟨⟨0x32#8, 0x30#8⟩, 0#4⟩, ⟨⟨0x61#8, 0x35#8⟩, 6#4⟩]

def cfgS : Config := defaultConfig .single leastTileMap
def cfgM : Config := defaultConfig .multi leastTileMap
def cfgX : Config := defaultConfig .single tmEx

def resetS : State := State.afterReset cfgS
def resetM : State := State.afterReset cfgM

/-- `AIRF(s, d, l)` of 95_test_vectors.md. -/
def airf (s0 s1 s2 d l : Byte) : List Byte := 0x30#8 :: (pairs 80 0x32#8 0x30#8 ++ [s0, s1, s2, d, l])

/-- `PARTX(x, "20"×20)` of 95_test_vectors.md. -/
def part (x : Byte) : List Byte := 0x30#8 :: (pairs 20 0x32#8 0x30#8 ++ [x])

def airTokens (n : Nat) : List Token := List.replicate n ⟨0x32#8, 0x30#8⟩
def zzTokens (n : Nat) : List Token := List.replicate n ⟨0x7A#8, 0x7A#8⟩

/-- A state with `n` bytes of a frame of kind `k` pending, the rest of the bytes zero. -/
def pending (cfg : Config) (k : FrameKind) (n : Nat) : State :=
  { State.afterReset cfg with accKind := some k, accLen := n, accBuf := cellsFrom 0 (marker k :: List.replicate (n - 1) 0#8) }

/-- A MULTI state that holds three parts. -/
def threeParts : State := { resetM with raNext := 3, raGrid := List.replicate 60 .air }

/-- A state with an error recorded (V10). -/
def errored : State := { resetS with err := { valid := true, code := 1#3, a := 0x41#16, b := 0#32 } }

theorem legal_of {s : State} {cfg : Config} (h : s.cfg = some cfg) (hl : LegalUnder cfg s) : Legal s := by
  unfold Legal
  rw [h]
  exact hl

/-! ### WellFormed refuses an ill-formed term for each check -/

theorem test_wf_reset_config : Instr.wellFormed cfgS (.reset { cfgS with lenScreen := 160 }) = false := by decide +kernel
theorem test_wf_deliver_empty : Instr.wellFormed cfgS (.deliver []) = false := by decide +kernel
theorem test_wf_screen_revision :
    Instr.wellFormed cfgM (.frameScreen (airTokens 80) 0x30#8 0x30#8 0x30#8 0x30#8 0x30#8) = false := by decide +kernel
theorem test_wf_screen_tokens :
    Instr.wellFormed cfgS (.frameScreen (airTokens 79) 0x30#8 0x30#8 0x30#8 0x30#8 0x30#8) = false := by decide +kernel
theorem test_wf_part_revision : Instr.wellFormed cfgS (.framePart [] (airTokens 20) 0x30#8) = false := by decide +kernel
theorem test_wf_part_filler : Instr.wellFormed cfgM (.framePart [0#8] (airTokens 20) 0x30#8) = false := by decide +kernel
theorem test_wf_part_tokens : Instr.wellFormed cfgM (.framePart [] (airTokens 21) 0x30#8) = false := by decide +kernel
theorem test_wf_save_length : Instr.wellFormed cfgS (.frameSave (List.replicate 416 0#8)) = false := by decide +kernel
theorem test_wf_load_length : Instr.wellFormed cfgS (.frameLoad (List.replicate 11 0#8)) = false := by decide +kernel
theorem test_wf_unknown_first : Instr.wellFormed cfgS (.frameUnknown 0x31#8 []) = false := by decide +kernel

/-- The clauses of R11 and R90, each broken alone: (a) V66, (b) V67 and a wrong sum, (c) both lengths, (d) "20" missing, "zz"
listed, a reserved code, two entries out of order, (e) a length above 65535. -/
theorem test_wf_config_clauses :
    [{ cfgS with lenScreen := 160 },
     { cfgM with partOff := 0, lenScreen := 41 },
     { cfgM with partOff := 2 },
     { cfgS with lenSave := 0 },
     { cfgS with lenLoad := 0 },
     { cfgS with tileMap := [] },
     { cfgS with tileMap := [⟨tokenAir, 1#4⟩] },
     { cfgS with tileMap := [⟨tokenAir, 0#4⟩, ⟨tokenZz, 0#4⟩] },
     { cfgS with tileMap := [⟨tokenAir, 0#4⟩, ⟨⟨0x61#8, 0x35#8⟩, 10#4⟩] },
     { cfgS with tileMap := [⟨⟨0x61#8, 0x35#8⟩, 6#4⟩, ⟨tokenAir, 0#4⟩] },
     { cfgS with lenSave := 65536 },
     { cfgS with lenLoad := 65536 },
     { cfgM with partOff := 65495, lenScreen := 65536 }].map configOk = List.replicate 13 false := by decide +kernel

/-- The defaults, TM_EX and the boundary values of R11 are well formed. -/
theorem test_wf_config_accepts :
    [cfgS, cfgM, cfgX, { cfgS with lenSave := 65535, lenLoad := 1 }, { cfgM with partOff := 65494, lenScreen := 65535 },
     { cfgS with fallback := .air }].map configOk = List.replicate 6 true := by decide +kernel

/-! ### Decoding: every constructor from what the spec's encoding gives it -/

/-- RESET and STATUS have no wire bytes; the operand of RESET is passed whole (R58). -/
theorem test_decode_reset : decode cfgS true (.reset cfgM) = .ok (.reset cfgM) := by decide +kernel
theorem test_decode_status : decode cfgS true (.status cfgS) = .ok .status := by decide +kernel
/-- A chunk while a frame is pending is not classified, marker or not (R84, V16). -/
theorem test_decode_deliver : decode cfgS false (.deliver cfgS [0x32#8]) = .ok (.deliver [0x32#8]) := by decide +kernel
/-- R63: marker, tokens 1..160, score 161..163, difficulty 164, lose 165. -/
theorem test_decode_screen :
    decode cfgS true (.deliver cfgS
        (0x30#8 :: 0x61#8 :: 0x35#8 :: (pairs 78 0x32#8 0x30#8 ++ [0x30#8, 0x33#8, 0x31#8, 0x32#8, 0x34#8, 0x37#8, 0x31#8]))) =
      .ok (.frameScreen (⟨0x61#8, 0x35#8⟩ :: (airTokens 78 ++ [⟨0x30#8, 0x33#8⟩])) 0x31#8 0x32#8 0x34#8 0x37#8 0x31#8) := by
  decide +kernel
/-- R64, R65 under PART_OFF = 3: marker, two filler bytes, 20 tokens, index. -/
theorem test_decode_part :
    decode { cfgM with partOff := 3, lenScreen := 44 } true (.deliver { cfgM with partOff := 3, lenScreen := 44 }
        (0x30#8 :: 0xAA#8 :: 0xBB#8 :: (pairs 19 0x32#8 0x30#8 ++ [0x61#8, 0x35#8, 0x32#8]))) =
      .ok (.framePart [0xAA#8, 0xBB#8] (airTokens 19 ++ [⟨0x61#8, 0x35#8⟩]) 0x32#8) := by decide +kernel
/-- R66: LEN_SAVE bytes, the marker and the payload. -/
theorem test_decode_save :
    decode cfgS true (.deliver cfgS (0x31#8 :: (0x30#8 :: List.replicate 414 0x41#8))) =
      .ok (.frameSave (0x30#8 :: List.replicate 414 0x41#8)) := by decide +kernel
/-- V48. -/
theorem test_decode_load :
    decode cfgS true (.deliver cfgS
        [0x32#8, 0x61#8, 0x62#8, 0x63#8, 0x64#8, 0x65#8, 0x66#8, 0x67#8, 0x68#8, 0x69#8, 0x6A#8, 0x6B#8, 0x6C#8]) =
      .ok (.frameLoad [0x61#8, 0x62#8, 0x63#8, 0x64#8, 0x65#8, 0x66#8, 0x67#8, 0x68#8, 0x69#8, 0x6A#8, 0x6B#8, 0x6C#8]) := by
  decide +kernel
/-- V12. -/
theorem test_decode_unknown :
    decode cfgS true (.deliver cfgS [0x33#8, 0x30#8, 0x30#8]) = .ok (.frameUnknown 0x33#8 [0x30#8, 0x30#8]) := by decide +kernel
/-- V64: an empty chunk is no instruction. -/
theorem test_decode_empty : decode cfgS true (.deliver cfgS []) = .error .emptyChunk := by decide +kernel

/-- Each frame row's first byte as a table word, zero bytes after it. -/
theorem test_tableWord_rows :
    decodeTableWord 8 0x30 = some (.frameScreen (List.replicate 80 ⟨0#8, 0#8⟩) 0#8 0#8 0#8 0#8 0#8) ∧
    decodeTableWord 8 0x31 = some (.frameSave (List.replicate 415 0#8)) ∧
    decodeTableWord 8 0x32 = some (.frameLoad (List.replicate 12 0#8)) ∧
    decodeTableWord 8 0x33 = some (.frameUnknown 0x33#8 []) := by decide +kernel

/-- A part frame has the same first byte; the model tells it by its 42 bytes (log entry 6). -/
theorem test_tableWord_part :
    decodeTableWord 336 0x30 = some (.framePart [] (List.replicate 20 ⟨0#8, 0#8⟩) 0#8) := by decide +kernel

/-- A step on a placed table word runs it: a load frame of zeros is emitted, an unknown byte is reported. -/
theorem test_withFetchWord :
    nextIs (step (State.reset.withFetchWord 8 0x32))
      (fun t => decide (t.out = { frame := some (.loadRequest (List.replicate 12 0#8)), error := none })) = true ∧
    nextIs (step (State.reset.withFetchWord 8 0xFF))
      (fun t => decide (t.out.error = some (.unknownFrameKind 0xFF#8))) = true := by decide +kernel

/-! ### One step per instruction -/

/-- V62: RESET drops a pending frame. -/
theorem test_reset_drops_pending :
    nextIs (exec (.reset cfgS) (pending cfgS .screen 21)) (fun t => decide (t = resetS)) = true := by decide +kernel
/-- V67. -/
theorem test_reset_refused :
    refusedAs (exec (.reset { cfgM with partOff := 0, lenScreen := 41 }) resetM) .illFormedConfig = true := by decide +kernel
/-- V17: 14 bytes "2" overflow a load frame. -/
theorem test_deliver_overflow :
    nextIs (exec (.deliver (List.replicate 14 0x32#8)) resetS)
      (fun t => decide (t = { resetS with
        out := { frame := none, error := some (.frameOverflow 13 14) }
        err := { valid := true, code := 2#3, a := 13#16, b := 14#32 } })) = true := by decide +kernel
/-- P4 steps 1 and 2: a pending screen of 165 bytes completes on the marker byte "0" of the next frame, lose false. -/
theorem test_deliver_completes :
    nextIs (andThen (exec (.deliver ((airf 0x30#8 0x30#8 0x30#8 0x30#8 0x31#8).take 165)) resetS)
        (fun s => exec (.deliver [0x30#8]) s))
      (fun t => decide (t = { resetS with
        out := { frame := some (.screenFrame { grid := List.replicate 80 .air, score := 0#10, scoreValid := true,
                                               difficulty := 0#4, difficultyValid := true, lose := false })
                 error := none } })) = true := by decide +kernel
/-- V61. -/
theorem test_status_returns_err :
    nextIs (exec .status errored)
      (fun t => decide (t = { errored with statusRet := some { valid := true, code := 1#3, a := 0x41#16, b := 0#32 } })) = true := by
  decide +kernel
/-- V65: no RESET yet. -/
theorem test_status_before_reset : refusedAs (exec .status State.unconstructed) .beforeReset = true := by decide +kernel
/-- V44 under TM_EX: cells 0 and 1, score 123, difficulty 4. -/
theorem test_screen_tiles :
    nextIs (exec (.frameScreen (⟨0x30#8, 0x33#8⟩ :: ⟨0x61#8, 0x35#8⟩ :: airTokens 78) 0x31#8 0x32#8 0x33#8 0x34#8 0x30#8)
        (State.afterReset cfgX))
      (fun t => decide (t.out =
        { frame := some (.screenFrame { grid := .normalStep :: .monster :: List.replicate 78 .air, score := 123#10
                                        scoreValid := true, difficulty := 4#4, difficultyValid := true, lose := false })
          error := none })) = true := by decide +kernel
/-- V43: lose override over unrecognised tokens, and a bad score digit reported. -/
theorem test_screen_lose_and_malformed :
    nextIs (exec (.frameScreen (zzTokens 80) 0x31#8 0x78#8 0x33#8 0x34#8 0x31#8) resetS)
      (fun t => decide (t.out.error = some (.malformedNumericField 1#2)) &&
        decide (t.err = { valid := true, code := 4#3, a := 1#16, b := 0#32 }) &&
        (match t.out.frame with
         | some (.screenFrame e) =>
           decide (e.grid = List.replicate 80 .air ∧ e.scoreValid = false ∧ e.difficulty = 4#4 ∧ e.lose = true)
         | _ => false)) = true := by decide +kernel
/-- V7 op 4: the last part, "zz", after 60 cells held. -/
theorem test_part_completes :
    nextIs (exec (.framePart [] (zzTokens 20) 0x33#8) threeParts)
      (fun t => decide (t = { resetM with
        out := { frame := some (.gridFrame (List.replicate 60 .air ++ List.replicate 20 .unknown)), error := none } })) = true := by
  decide +kernel
/-- V8: part 2 where part 1 is expected. -/
theorem test_part_out_of_sequence :
    nextIs (exec (.framePart [] (airTokens 20) 0x32#8) { resetM with raNext := 1, raGrid := List.replicate 20 .air })
      (fun t => decide (t = { resetM with
        out := { frame := none, error := some (.outOfSequencePart 1 0x32#8) }
        err := { valid := true, code := 3#3, a := 1#16, b := 0x32#32 } })) = true := by decide +kernel
/-- V47: marker bytes inside the payload pass; V55: between two parts the reassembly stays. -/
theorem test_save_passes_payload :
    nextIs (exec (.frameSave (0x30#8 :: 0x31#8 :: 0x32#8 :: List.replicate 412 0x41#8)) threeParts)
      (fun t => decide (t = { threeParts with
        out := { frame := some (.saveBlob (0x30#8 :: 0x31#8 :: 0x32#8 :: List.replicate 412 0x41#8)), error := none } })) = true := by
  decide +kernel
/-- V24: LEN_LOAD = 1, an empty payload. -/
theorem test_load_empty_payload :
    nextIs (exec (.frameLoad []) (State.afterReset { cfgS with lenLoad := 1 }))
      (fun t => decide (t.out = { frame := some (.loadRequest []), error := none })) = true := by decide +kernel
/-- V20: the new error replaces the old one. -/
theorem test_unknown_replaces_error :
    nextIs (exec (.frameUnknown 0xFF#8 []) errored)
      (fun t => decide (t.err = { valid := true, code := 1#3, a := 0xFF#16, b := 0#32 })) = true := by decide +kernel

/-! ### Operand forms and the wire contract -/

/-- V26 to V33, under TM_EX and both fallbacks. -/
theorem test_tok :
    [tok cfgX ⟨0x32#8, 0x30#8⟩, tok cfgX ⟨0x7A#8, 0x7A#8⟩, tok { cfgX with fallback := .air } ⟨0x7A#8, 0x7A#8⟩,
     tok cfgX ⟨0x30#8, 0x33#8⟩, tok cfgX ⟨0x61#8, 0x35#8⟩, tok cfgX ⟨0x41#8, 0x35#8⟩, tok cfgX ⟨0x30#8, 0x32#8⟩,
     tok cfgX ⟨0x00#8, 0xFF#8⟩] =
    [.air, .unknown, .air, .normalStep, .monster, .unknown, .unknown, .unknown] := by decide +kernel

/-- The code table of R68, each code. -/
theorem test_tileCodes :
    [TileId.air, .doodlerFacingUp, .doodlerFacingDown, .normalStep, .brokenStep, .springStep, .monster, .blackHole,
     .dizzyDoodlerUp, .bullet, .unknown].map (fun t => (tileCode t).toNat) = [0, 1, 2, 3, 4, 5, 6, 7, 8, 9, 15] := by decide +kernel

/-- R78: every command is 23 bytes; `control-left-----------` and the last byte are as printed. -/
theorem test_outbound :
    [OutboundCommand.controlRight, .controlLeft, .controlFire, .loadApprove].map (fun c => (outboundBytes c).length) =
      [23, 23, 23, 23] ∧
    outboundBytes .controlLeft =
      [0x63#8, 0x6F#8, 0x6E#8, 0x74#8, 0x72#8, 0x6F#8, 0x6C#8, 0x2D#8, 0x6C#8, 0x65#8, 0x66#8, 0x74#8] ++
        List.replicate 11 0x2D#8 := by decide +kernel

/-! ### Witnesses: each obligation's hypotheses can be met

Named after the obligation. Where the hypotheses are `exec i s = .next t` the witness runs a concrete instruction. -/

theorem ready_resetS : Ready resetS cfgS := ⟨rfl, by decide +kernel⟩
theorem ready_resetM : Ready resetM cfgM := ⟨rfl, by decide +kernel⟩

theorem legal_resetS : Legal resetS :=
  legal_of (cfg := cfgS) rfl ⟨by decide +kernel, by decide +kernel, ⟨by decide, by intro k h; cases h⟩, by decide, by decide⟩

theorem legal_resetM : Legal resetM :=
  legal_of (cfg := cfgM) rfl ⟨by decide +kernel, by decide +kernel, ⟨by decide, by intro k h; cases h⟩, by decide, by decide⟩

theorem legal_errored : Legal errored :=
  legal_of (cfg := cfgS) rfl ⟨by decide +kernel, by decide +kernel, ⟨by decide, by intro k h; cases h⟩, by decide, by decide⟩

theorem legal_threeParts : Legal threeParts :=
  legal_of (cfg := cfgM) rfl
    ⟨by decide +kernel, by decide +kernel, ⟨by decide, by intro k h; cases h⟩, by decide +kernel, by decide⟩

/-- The longest pending load frame: 12 of 13 bytes. -/
theorem legal_pendingLoad : Legal (pending cfgS .load 12) :=
  legal_of (cfg := cfgS) rfl
    ⟨by decide +kernel, by decide +kernel, ⟨by decide, by intro k h; cases h; decide +kernel⟩, by decide, by decide⟩

/-- The shortest: one byte. -/
theorem legal_pendingByte : Legal (pending cfgS .load 1) :=
  legal_of (cfg := cfgS) rfl
    ⟨by decide +kernel, by decide +kernel, ⟨by decide, by intro k h; cases h; decide +kernel⟩, by decide, by decide⟩

theorem witness_ResetLeavesTheResetValues :
    configOk cfgS = true ∧ configOk { cfgS with lenScreen := 165 } = false := by decide +kernel

theorem witness_ConfigCheckIsR11 : TileMapCanonical cfgX.tileMap ∧ TileMapCanonical [] := by decide +kernel

theorem witness_StatusReturnsErrAndChangesNothing : Ready errored cfgS ∧ errored.err ≠ ErrReg.clear :=
  ⟨⟨rfl, by decide +kernel⟩, by decide⟩

theorem witness_EmptyChunkIsRefused :
    (withInputs [.deliver cfgS []] resetS).cfg = some cfgS ∧
      (withInputs [.deliver cfgS []] resetS).inputs = .deliver cfgS [] :: [] := ⟨rfl, rfl⟩

theorem witness_OperationsBeforeResetAreRefused :
    State.unconstructed.cfg = none ∧ configOk cfgM = true ∧
      (withInputs [.deliver cfgM [0x30#8]] State.unconstructed).inputs = .deliver cfgM [0x30#8] :: [] ∧
      (withInputs [.status cfgM] State.unconstructed).inputs = .status cfgM :: [] ∧
      (withInputs [.reset cfgM] State.unconstructed).inputs = .reset cfgM :: [] :=
  ⟨rfl, by decide +kernel, rfl, rfl, rfl⟩

theorem witness_ConfigurationChangesOnlyByReset :
    (∃ t, exec (.reset cfgM) resetS = .next t) ∧ (∃ t, exec .status resetS = .next t) ∧
      resetS.cfg = some cfgS ∧ cfgM ≠ cfgS ∧
      (withInputs [.deliver cfgM [0x30#8]] resetS).inputs = .deliver cfgM [0x30#8] :: [] ∧
      (withInputs [.status cfgM] resetS).inputs = .status cfgM :: [] :=
  ⟨⟨_, rfl⟩, ⟨_, rfl⟩, rfl, by decide +kernel, rfl, rfl⟩

theorem witness_ClassifyIsExact :
    [0x2F#8, 0x30#8, 0x31#8, 0x32#8, 0x33#8, 0x00#8].map classify =
      [none, some .screen, some .save, some .load, none, none] := by decide +kernel

theorem witness_UnknownFirstByteDropsTheChunk :
    Ready resetS cfgS ∧ resetS.accKind = none ∧ classify 0x33#8 = none ∧ classify 0x2F#8 = none :=
  ⟨ready_resetS, rfl, by decide, by decide⟩

/-- Pending and fresh, each one byte over the length. -/
theorem witness_OverflowDropsFrameAndChunk :
    Ready (pending cfgS .load 12) cfgS ∧ (pending cfgS .load 12).accKind = some .load ∧
      lenOf cfgS .load < (pending cfgS .load 12).accLen + ([0#8].length + 1) ∧
      resetS.accKind = none ∧ classify 0x32#8 = some .load ∧
      lenOf cfgS .load < resetS.accLen + ((List.replicate 13 0#8).length + 1) :=
  ⟨⟨rfl, by decide +kernel⟩, rfl, by decide, rfl, by decide, by decide⟩

/-- Pending and fresh, each one byte short of the length. -/
theorem witness_SegmentIsAppendedInOrder :
    Ready (pending cfgS .load 1) cfgS ∧ (pending cfgS .load 1).accKind = some .load ∧
      (pending cfgS .load 1).accLen + ((List.replicate 10 0#8).length + 1) < lenOf cfgS .load ∧
      resetS.accKind = none ∧ classify 0x32#8 = some .load ∧
      resetS.accLen + ((List.replicate 11 0#8).length + 1) < lenOf cfgS .load :=
  ⟨⟨rfl, by decide +kernel⟩, rfl, by decide, rfl, by decide, by decide⟩

/-- Each clause, pending and fresh. -/
theorem witness_CompletionDispatchesTheWholeFrame :
    Legal (pending cfgS .load 12) ∧ (pending cfgS .load 12).cfg = some cfgS ∧
      (pending cfgS .load 12).accKind = some .load ∧
      (pending cfgS .load 12).accLen + (([] : List Byte).length + 1) = lenOf cfgS .load ∧
      Legal resetS ∧ resetS.accKind = none ∧ classify 0x32#8 = some .load ∧
      resetS.accLen + ((List.replicate 12 0#8).length + 1) = lenOf cfgS .load ∧
      resetS.accLen + ((List.replicate 11 0#8).length + 1) < lenOf cfgS .load :=
  ⟨legal_pendingLoad, rfl, rfl, by decide, legal_resetS, rfl, by decide, by decide, by decide⟩

theorem witness_NoErrorIsFatal :
    Legal errored ∧ errored.cfg = some cfgS ∧ errored.err.valid = true ∧ [0x33#8] ≠ [] ∧
      wireBytes (.frameLoad []) ≠ [] ∧ configOk cfgM = true :=
  ⟨legal_errored, rfl, rfl, by decide, by decide, by decide +kernel⟩

/-- One witness for each way on: more bytes, RESET, completion, overflow. -/
theorem witness_PendingFrameEndsOnlyByOverflowCompletionOrReset :
    (pending cfgS .load 1).cfg = some cfgS ∧ (pending cfgS .load 1).accKind = some .load ∧
      (∃ t, exec (.deliver [0#8]) (pending cfgS .load 1) = .next t ∧ decide (t.accLen = 2) = true) ∧
      (∃ t, exec (.reset cfgS) (pending cfgS .load 1) = .next t ∧ decide (t.accLen = 0) = true) ∧
      (∃ t, exec (.deliver [0#8]) (pending cfgS .load 12) = .next t ∧ decide (t.accLen = 0 ∧ t.out.error = none) = true) ∧
      (∃ t, exec (.deliver [0#8, 0#8]) (pending cfgS .load 12) = .next t ∧
        decide (t.out.error = some (.frameOverflow 13 14)) = true) :=
  ⟨rfl, rfl, exists_of_nextIs (by decide +kernel), exists_of_nextIs (by decide +kernel), exists_of_nextIs (by decide +kernel),
    exists_of_nextIs (by decide +kernel)⟩

theorem witness_PendingFrameShowsNothing :
    ∃ t, exec (.deliver [0x30#8]) errored = .next t ∧ decide (t.accKind ≠ none) = true :=
  exists_of_nextIs (by decide +kernel)

/-- A load frame in three chunks, and in one. -/
theorem witness_ChunkingInvariance :
    Legal resetS ∧ resetS.cfg = some cfgS ∧ resetS.accKind = none ∧
      (0x32#8 :: List.replicate 12 0#8).head? = some (marker .load) ∧
      (0x32#8 :: List.replicate 12 0#8).length = lenOf cfgS .load ∧
      [[0x32#8], List.replicate 5 0#8, List.replicate 7 0#8].flatten = 0x32#8 :: List.replicate 12 0#8 ∧
      (∀ c ∈ [[0x32#8], List.replicate 5 0#8, List.replicate 7 0#8], c ≠ []) ∧
      [0x32#8 :: List.replicate 12 0#8].flatten = 0x32#8 :: List.replicate 12 0#8 :=
  ⟨legal_resetS, rfl, rfl, by decide, by decide, by decide, by decide, by decide⟩

theorem witness_FrameRowIsItsChunk :
    nextIs (exec (.framePart [] (airTokens 20) 0x30#8) resetM) (fun t => decide (t.raNext = 1)) = true := by decide +kernel

theorem witness_ScreenFrameIsDecodedAndEmitted :
    Ready resetS cfgS ∧ cfgS.rev = .single ∧ IsIdle resetS ∧ (airTokens 80).length = 80 :=
  ⟨ready_resetS, rfl, ⟨rfl, rfl, rfl⟩, by decide⟩

/-- Lose set and not set; the digits of V36. -/
theorem witness_ScreenFrameByOffsets :
    Ready resetS cfgS ∧ cfgS.rev = .single ∧ IsIdle resetS ∧
      (airf 0x39#8 0x39#8 0x39#8 0x39#8 0x31#8).length = 166 ∧
      (airf 0x39#8 0x39#8 0x39#8 0x39#8 0x31#8)[0]? = some 0x30#8 ∧
      (airf 0x39#8 0x39#8 0x39#8 0x39#8 0x31#8)[165]? = some 0x31#8 ∧
      (airf 0x39#8 0x39#8 0x39#8 0x39#8 0x30#8)[165]? = some 0x30#8 ∧
      (airf 0x39#8 0x39#8 0x39#8 0x39#8 0x30#8)[1 + 2 * 79]? = some 0x32#8 ∧
      (airf 0x39#8 0x39#8 0x39#8 0x39#8 0x30#8)[2 + 2 * 79]? = some 0x30#8 ∧
      (airf 0x39#8 0x39#8 0x39#8 0x39#8 0x30#8)[161]? = some 0x39#8 ∧ isDigit 0x39#8 = true :=
  ⟨ready_resetS, rfl, ⟨rfl, rfl, rfl⟩, by decide +kernel, by decide +kernel, by decide +kernel, by decide +kernel,
    by decide +kernel, by decide +kernel, by decide +kernel, by decide +kernel⟩

/-- The bytes beside and at the ends of the digits (R69). -/
theorem witness_DigitsAndLoseByte :
    [0x2F#8, 0x30#8, 0x39#8, 0x3A#8].map isDigit = [false, true, true, false] ∧
      [0x31#8, 0x01#8, 0x32#8].map loseOf = [true, false, false] := by decide +kernel

/-- V36, V37: 999 and 007. -/
theorem witness_ValidNumericFieldsHaveTheirDecimalValue :
    scoreValid 0x39#8 0x39#8 0x39#8 = true ∧ scoreOf 0x39#8 0x39#8 0x39#8 = 999#10 ∧
      scoreValid 0x30#8 0x30#8 0x37#8 = true ∧ scoreOf 0x30#8 0x30#8 0x37#8 = 7#10 ∧
      difficultyValid 0x39#8 = true ∧ difficultyOf 0x39#8 = 9#4 := by decide +kernel

theorem witness_SaveFramePassesItsPayload :
    Ready resetM cfgM ∧ IsIdle resetM ∧ (List.replicate 415 0#8).length + 1 = cfgM.lenSave :=
  ⟨ready_resetM, ⟨rfl, rfl, rfl⟩, by decide +kernel⟩

theorem witness_LoadFramePassesItsPayload :
    Ready resetS cfgS ∧ IsIdle resetS ∧ (List.replicate 12 0#8).length + 1 = cfgS.lenLoad :=
  ⟨ready_resetS, ⟨rfl, rfl, rfl⟩, by decide +kernel⟩

theorem witness_EmittedFramesAreInRange :
    (∃ t, exec (.frameScreen (airTokens 80) 0x39#8 0x39#8 0x39#8 0x39#8 0x31#8) resetS = .next t ∧
      (match t.out.frame with
       | some (.screenFrame e) => e.scoreValid && e.difficultyValid && e.lose
       | _ => false) = true) ∧
    (∃ t, exec (.framePart [] (airTokens 20) 0x33#8) threeParts = .next t ∧
      decide (t.out.frame = some (.gridFrame (List.replicate 80 .air))) = true) :=
  ⟨exists_of_nextIs (by decide +kernel), exists_of_nextIs (by decide +kernel)⟩

/-- Two IDLE states that differ in their error register. -/
theorem witness_IdleSingleCoreForgetsThePast :
    Ready resetS cfgS ∧ Ready errored cfgS ∧ cfgS.rev = .single ∧ IsIdle resetS ∧ IsIdle errored ∧ resetS ≠ errored ∧
      (∃ t, exec (.deliver [0x30#8]) resetS = .next t) ∧ (∃ t, exec (.deliver [0x30#8]) errored = .next t) :=
  ⟨ready_resetS, ⟨rfl, by decide +kernel⟩, rfl, ⟨rfl, rfl, rfl⟩, ⟨rfl, rfl, rfl⟩, by decide,
    (exists_of_nextIs (p := fun _ => true) (by decide +kernel)).imp (fun _ h => h.1),
    (exists_of_nextIs (p := fun _ => true) (by decide +kernel)).imp (fun _ h => h.1)⟩

/-- The first and the last part that is not the fourth, and a configuration with filler. -/
theorem witness_ExpectedPartIsAppended :
    Ready resetM cfgM ∧ cfgM.rev = .multi ∧ IsIdle resetM ∧ ([] : List Byte).length + 1 = cfgM.partOff ∧
      (airTokens 20).length = 20 ∧ resetM.raNext.val < 3 ∧ (0x30#8 : Byte).toNat = 0x30 + resetM.raNext.val ∧
      (0x32#8 : Byte).toNat = 0x30 + { resetM with raNext := 2 }.raNext.val ∧
      configOk { cfgM with partOff := 3, lenScreen := 44 } = true :=
  ⟨ready_resetM, rfl, ⟨rfl, rfl, rfl⟩, rfl, by decide, by decide, by decide, by decide, by decide +kernel⟩

theorem witness_LastPartEmitsTheGrid :
    Ready threeParts cfgM ∧ cfgM.rev = .multi ∧ IsIdle threeParts ∧ ([] : List Byte).length + 1 = cfgM.partOff ∧
      (airTokens 20).length = 20 ∧ threeParts.raNext = 3 ∧ threeParts.raGrid.length = 60 :=
  ⟨⟨rfl, by decide +kernel⟩, rfl, ⟨rfl, rfl, rfl⟩, rfl, by decide, rfl, by decide +kernel⟩

/-- V52, and the digit one past the expected one. -/
theorem witness_OutOfSequencePartDropsTheReassembly :
    Ready resetM cfgM ∧ cfgM.rev = .multi ∧ IsIdle resetM ∧ ([] : List Byte).length + 1 = cfgM.partOff ∧
      (airTokens 20).length = 20 ∧ (0x78#8 : Byte).toNat ≠ 0x30 + resetM.raNext.val ∧
      (0x31#8 : Byte).toNat ≠ 0x30 + resetM.raNext.val ∧ (0x34#8 : Byte).toNat ≠ 0x30 + threeParts.raNext.val :=
  ⟨ready_resetM, rfl, ⟨rfl, rfl, rfl⟩, rfl, by decide, by decide, by decide, by decide⟩

theorem witness_FourPartsInOrderMakeOneGrid :
    Legal resetM ∧ resetM.cfg = some cfgM ∧ cfgM.rev = .multi ∧ resetM.accKind = none ∧ resetM.raNext = 0 ∧
      (∀ p : Fin 4, ((fun _ => []) p : List Byte).length + 1 = cfgM.partOff) ∧
      (∀ p : Fin 4, ((fun _ => airTokens 20) p : List Token).length = 20) :=
  ⟨legal_resetM, rfl, rfl, rfl, rfl, fun _ => rfl, fun _ => rfl⟩

/-- A completed part changes the reassembly; a save frame, an overflow and an unknown byte do not (V55, V56). -/
theorem witness_OnlyPartsAndResetChangeTheReassembly :
    threeParts.cfg = some cfgM ∧
      (∃ t, exec (.framePart [] (airTokens 20) 0x33#8) threeParts = .next t ∧ decide (t.raNext ≠ threeParts.raNext) = true) ∧
      (∃ t, exec (.frameSave (List.replicate 415 0x41#8)) threeParts = .next t ∧
        decide (t.out.frame = some (.saveBlob (List.replicate 415 0x41#8))) = true) ∧
      (∃ t, exec (.deliver (0x30#8 :: pairs 30 0x32#8 0x30#8)) threeParts = .next t ∧
        decide (t.out.error = some (.frameOverflow 42 61)) = true) ∧
      (∃ t, exec (.frameUnknown 0x41#8 []) threeParts = .next t ∧
        decide (t.out.error = some (.unknownFrameKind 0x41#8)) = true) :=
  ⟨rfl, exists_of_nextIs (by decide +kernel), exists_of_nextIs (by decide +kernel), exists_of_nextIs (by decide +kernel),
    exists_of_nextIs (by decide +kernel)⟩

theorem witness_PartCounterMoves :
    (∃ t, exec (.framePart [] (airTokens 20) 0x30#8) resetM = .next t ∧ decide (t.raNext = 1) = true) ∧
      (∃ t, exec (.framePart [] (airTokens 20) 0x33#8) threeParts = .next t ∧ decide (t.raNext = 0) = true) ∧
      (∃ t, exec .status threeParts = .next t ∧ decide (t.raNext = 3) = true) :=
  ⟨exists_of_nextIs (by decide +kernel), exists_of_nextIs (by decide +kernel), exists_of_nextIs (by decide +kernel)⟩

/-- A token without and one with an entry, under each fallback. -/
theorem witness_TokenDecodesByTableOrFallback :
    configOk cfgX = true ∧ configOk { cfgX with fallback := .air } = true ∧ cfgX.fallback = .unknown ∧
      tileLookup cfgX.tileMap ⟨0x7A#8, 0x7A#8⟩ = none ∧ tileLookup cfgX.tileMap ⟨0x61#8, 0x35#8⟩ = some 6#4 := by decide +kernel

/-- V35 and V34. -/
theorem witness_TokensDecodesEachPairInOrder :
    [0x30#8, 0x33#8, 0x61#8, 0x35#8].length = 2 * 2 ∧
      tokens cfgX [0x30#8, 0x33#8, 0x61#8, 0x35#8] 2 = [.normalStep, .monster] ∧
      tokens cfgS [0x32#8, 0x30#8, 0x7A#8, 0x7A#8, 0x32#8, 0x30#8] 3 = [.air, .unknown, .air] := by decide +kernel

theorem witness_EveryTileFunctionHasOneTable :
    TileMapCanonical [] ∧ (∀ t : Token, tileLookup [] t = (fun _ => none) t) := ⟨by decide, fun _ => rfl⟩

/-- V22, and an actual length at and above the saturation of `ERR_B` (R120). -/
theorem witness_RaiseRecordsTheError :
    (166 : Nat) ≤ 65535 ∧ (raise (.frameOverflow 166 1001) resetS).err = { valid := true, code := 2#3, a := 166#16, b := 1001#32 } ∧
      (raise (.frameOverflow 13 4294967295) resetS).err.b = 4294967295#32 ∧
      (raise (.frameOverflow 13 4294967296) resetS).err.b = 4294967295#32 := by decide +kernel

theorem witness_OutputRecordCombinations :
    resetS.cfg = some cfgS ∧ resetM.cfg = some cfgM ∧
      (∃ t, exec (.frameScreen (airTokens 80) 0x31#8 0x32#8 0x61#8 0x35#8 0x30#8) resetS = .next t ∧
        decide (t.out.error = some (.malformedNumericField 1#2)) = true) ∧
      (∃ t, exec (.framePart [] (airTokens 20) 0x34#8) resetM = .next t ∧
        decide (t.out.error = some (.outOfSequencePart 0 0x34#8)) = true) ∧
      (∃ t, exec (.framePart [] (airTokens 20) 0x33#8) threeParts = .next t ∧ t.out.frame.isSome = true) ∧
      (∃ t, exec (.frameUnknown 0#8 []) resetS = .next t ∧ decide (t.out.error = some (.unknownFrameKind 0#8)) = true) ∧
      (∃ t, exec (.deliver (List.replicate 14 0x32#8)) resetS = .next t ∧
        decide (t.out.error = some (.frameOverflow 13 14)) = true) :=
  ⟨rfl, rfl, exists_of_nextIs (by decide +kernel), exists_of_nextIs (by decide +kernel), exists_of_nextIs (by decide +kernel),
    exists_of_nextIs (by decide +kernel), exists_of_nextIs (by decide +kernel)⟩

/-- Each error from a legal state. -/
theorem witness_ErrorChangesExactlyItsState :
    Legal resetS ∧ resetS.cfg = some cfgS ∧ Legal threeParts ∧ threeParts.cfg = some cfgM ∧ Legal (pending cfgS .load 12) ∧
      (∃ t, exec (.frameUnknown 0xFF#8 []) resetS = .next t ∧ decide (t.out.error = some (.unknownFrameKind 0xFF#8)) = true) ∧
      (∃ t, exec (.deliver [0x58#8, 0x59#8]) (pending cfgS .load 12) = .next t ∧
        decide (t.out.error = some (.frameOverflow 13 14)) = true) ∧
      (∃ t, exec (.framePart [] (airTokens 20) 0x32#8) threeParts = .next t ∧
        decide (t.out.error = some (.outOfSequencePart 3 0x32#8)) = true) ∧
      (∃ t, exec (.frameScreen (airTokens 80) 0x2D#8 0x30#8 0x31#8 0x78#8 0x30#8) resetS = .next t ∧
        decide (t.out.error = some (.malformedNumericField 3#2)) = true) :=
  ⟨legal_resetS, rfl, legal_threeParts, rfl, legal_pendingLoad, exists_of_nextIs (by decide +kernel),
    exists_of_nextIs (by decide +kernel), exists_of_nextIs (by decide +kernel), exists_of_nextIs (by decide +kernel)⟩

theorem witness_ErrorFlagLivesUntilAcceptedChunkRaiseOrReset :
    (∃ t, exec .status errored = .next t ∧ decide (t.err = errored.err) = true) ∧
      (∃ t, exec (.deliver [0x32#8]) errored = .next t ∧ decide (t.err = ErrReg.clear) = true) ∧
      (∃ t, exec (.frameUnknown 0x7F#8 []) errored = .next t ∧ decide (t.err.a = 0x7F#16) = true) :=
  ⟨exists_of_nextIs (by decide +kernel), exists_of_nextIs (by decide +kernel), exists_of_nextIs (by decide +kernel)⟩

/-- A well-formed instruction whose row applies, of every row. -/
theorem witness_DecodeOfEncodeIsTheInstruction :
    configOk cfgS = true ∧ configOk cfgM = true ∧
      [Instr.reset cfgM, .deliver [0x30#8], .status, .frameScreen (airTokens 80) 0x30#8 0x30#8 0x30#8 0x30#8 0x30#8,
       .frameSave (List.replicate 415 0#8), .frameLoad (List.replicate 12 0#8), .frameUnknown 0x33#8 []].all
        (fun i => i.wellFormed cfgS && i.applies cfgS true) = true ∧
      (Instr.framePart [] (airTokens 20) 0x30#8).wellFormed cfgM = true ∧
      (Instr.framePart [] (airTokens 20) 0x30#8).applies cfgM true = true := by decide +kernel

theorem witness_EveryChunkIsOneInstruction : configOk cfgS = true ∧ [0x30#8] ≠ [] := by decide +kernel

theorem witness_StepRunsTheDecodedInstruction :
    (withInputs [.deliver cfgS [0x30#8]] resetS).cfg = some cfgS ∧
      (withInputs [.deliver cfgS [0x30#8]] resetS).inputs = .deliver cfgS [0x30#8] :: [] ∧
      decodeChunk cfgS resetS.accKind.isNone [0x30#8] = .ok (.deliver [0x30#8]) ∧
      (withInputs [.status cfgS] resetS).inputs = .status cfgS :: [] ∧
      (withInputs [.reset cfgM] State.unconstructed).inputs = .reset cfgM :: [] :=
  ⟨rfl, rfl, by decide +kernel, rfl, rfl⟩

theorem witness_ResetStatesAreLegal : configOk cfgS = true ∧ configOk cfgM = true := by decide +kernel

/-- From a pending frame, a step that completes it. -/
theorem witness_StepKeepsTheInvariant :
    Legal (withInputs [.deliver cfgS [0#8]] (pending cfgS .load 12)) ∧
      (∃ t, step (withInputs [.deliver cfgS [0#8]] (pending cfgS .load 12)) = .next t ∧
        decide (t.out.frame = some (.loadRequest (List.replicate 12 0#8))) = true) :=
  ⟨legal_of (cfg := cfgS) rfl
      ⟨by decide +kernel, by decide +kernel, ⟨by decide, by intro k h; cases h; decide +kernel⟩, by decide, by decide⟩,
    exists_of_nextIs (by decide +kernel)⟩

theorem witness_LegalStatesFaultOnlyAtTheEnd : Legal resetS ∧ step resetS = .fault .runEnded := ⟨legal_resetS, rfl⟩

/-- Each of the four refusals, from a legal state. -/
theorem witness_RefusalsAreExactlyThoseOfTheSpec :
    Legal (withInputs [.status cfgS] State.unconstructed) ∧
      step (withInputs [.status cfgS] State.unconstructed) = .refused .beforeReset ∧
      Legal (withInputs [.status cfgM] resetS) ∧
      refusedAs (step (withInputs [.status cfgM] resetS)) .configChanged = true ∧
      refusedAs (step (withInputs [.deliver cfgS []] resetS)) .emptyChunk = true ∧
      refusedAs (step (withInputs [.reset { cfgS with lenSave := 0 }] resetS)) .illFormedConfig = true :=
  ⟨⟨rfl, rfl, rfl, rfl, rfl, rfl⟩, rfl,
    legal_of (cfg := cfgS) rfl
      ⟨by decide +kernel, by decide +kernel, ⟨by decide, by intro k h; cases h⟩, by decide, by decide⟩,
    by decide +kernel, by decide +kernel, by decide +kernel⟩

end Sys2Proof.Tests
end

section
/-! PROOFS. The configuration check: what a lookup in the canonical tile table finds, and each conjunct of `configOk` as the
condition of R11 or R90 it stands for. -/

namespace Sys2Proof

/-! ### The lookup in a tile table -/

@[simp] theorem tileLookup_nil (t : Token) : tileLookup [] t = none := rfl

@[simp] theorem tileLookup_cons_self (e : TileEntry) (m : List TileEntry) :
    tileLookup (e :: m) e.token = some e.code := if_pos rfl

theorem tileLookup_cons_of_ne {e : TileEntry} {t : Token} (h : e.token ≠ t) (m : List TileEntry) :
    tileLookup (e :: m) t = tileLookup m t := if_neg h

/-- A code that is found comes from an entry of the table, canonical or not. -/
theorem exists_mem_of_tileLookup {m : List TileEntry} {t : Token} {code : BitVec 4}
    (h : tileLookup m t = some code) : ∃ e ∈ m, e.token = t ∧ e.code = code := by
  induction m with
  | nil => simp at h
  | cons e m ih =>
    by_cases he : e.token = t
    · subst he
      exact ⟨e, List.mem_cons_self, rfl, by simpa using h⟩
    · rw [tileLookup_cons_of_ne he] at h
      obtain ⟨x, hx, hxt⟩ := ih h
      exact ⟨x, List.mem_cons_of_mem e hx, hxt⟩

/-- In a canonical table no entry hides a later one: the keys rise, so the tokens differ. -/
theorem tileLookup_of_mem {m : List TileEntry} (hm : TileMapCanonical m) {e : TileEntry} (he : e ∈ m) :
    tileLookup m e.token = some e.code := by
  induction m with
  | nil => simp at he
  | cons x m ih =>
    obtain ⟨hx, hm⟩ := List.pairwise_cons.mp hm
    rcases List.mem_cons.mp he with rfl | he
    · exact tileLookup_cons_self e m
    · have hne : x.token ≠ e.token := fun h => (hx e he).ne (congrArg tokenKey h)
      rw [tileLookup_cons_of_ne hne, ih hm he]

theorem tileLookup_eq_some_iff {m : List TileEntry} (hm : TileMapCanonical m) (t : Token) (code : BitVec 4) :
    tileLookup m t = some code ↔ ∃ e ∈ m, e.token = t ∧ e.code = code := by
  constructor
  · exact exists_mem_of_tileLookup
  · rintro ⟨e, he, rfl, rfl⟩
    exact tileLookup_of_mem hm he

/-! ### The conjuncts of the check -/

/-- R90 (c): in a canonical table the listed codes are exactly the codes the table gives. -/
theorem forall_mem_code_iff_forall_tileLookup {m : List TileEntry} (hm : TileMapCanonical m) (P : BitVec 4 → Prop) :
    (∀ e ∈ m, P e.code) ↔ ∀ t code, tileLookup m t = some code → P code := by
  simp only [tileLookup_eq_some_iff hm]
  constructor
  · rintro h _ _ ⟨e, he, -, rfl⟩
    exact h e he
  · exact fun h e he => h e.token e.code ⟨e, he, rfl, rfl⟩

theorem tileMapOk_iff {m : List TileEntry} (hm : TileMapCanonical m) :
    tileMapOk m = true ↔
      tileLookup m tokenAir = some 0#4 ∧ tileLookup m tokenZz = none ∧
        ∀ t code, tileLookup m t = some code → code.toNat ≤ 9 := by
  rw [← forall_mem_code_iff_forall_tileLookup hm (fun code => code.toNat ≤ 9)]
  simp only [tileMapOk, Bool.and_eq_true, decide_eq_true_eq, List.all_eq_true, and_iff_left hm, and_assoc]

theorem screenLengthOk_iff (cfg : Config) :
    screenLengthOk cfg = true ↔
      (cfg.rev = .single → cfg.lenScreen = 166) ∧
        (cfg.rev = .multi → cfg.lenScreen = cfg.partOff + 41 ∧ 1 ≤ cfg.partOff) := by
  cases hr : cfg.rev with
  | single => simp [screenLengthOk, hr]
  | multi => simp [screenLengthOk, hr]

theorem configOk_iff (cfg : Config) :
    configOk cfg = true ↔
      screenLengthOk cfg = true ∧ 1 ≤ cfg.lenSave ∧ 1 ≤ cfg.lenLoad ∧ tileMapOk cfg.tileMap = true ∧
        cfg.lenScreen ≤ 65535 ∧ cfg.lenSave ≤ 65535 ∧ cfg.lenLoad ≤ 65535 := by
  simp only [configOk, Bool.and_eq_true, decide_eq_true_eq, and_assoc]

/-- Settles O2: each conjunct of the check is its condition of R11 or R90. The one that is not a matter of form is R90 (c),
where the check reads the entries of the list and the rule the codes the table gives. -/
theorem configCheckIsR11 : Obligations.ConfigCheckIsR11 := by
  intro c hm
  rw [configOk_iff, screenLengthOk_iff, tileMapOk_iff hm]
  simp only [tokenAir, tokenZz, and_assoc]

end Sys2Proof
end

section
/-! PROOFS. The invariant `Legal` (10_state.md R24, R27, R31, R33): what each part of it says of the updates an operation is
made of, then that every instruction and so every step keeps it. -/

namespace Sys2Proof.Machine

/-! ### The error register (R33) -/

theorem errOk_clear (cfg : Config) : ErrOk cfg ErrReg.clear := by
  simp [ErrOk, ErrReg.clear]

/-- A raised error is in order in the revision that can raise it (R123, R124). -/
theorem errOk_errRegOf {cfg : Config} {e : ErrorEvent} (hm : ∀ p x, e = .outOfSequencePart p x → cfg.rev = .multi)
    (hs : ∀ m, e = .malformedNumericField m → cfg.rev = .single) : ErrOk cfg (errRegOf e) := by
  cases e with
  | unknownFrameKind b => simp [ErrOk, errRegOf, errCode]
  | frameOverflow x a => simp [ErrOk, errRegOf, errCode]
  | outOfSequencePart p x => simp [ErrOk, errRegOf, errCode, hm p x rfl]
  | malformedNumericField m => simp [ErrOk, errRegOf, errCode, hs m rfl]

theorem errOk_numericError {cfg : Config} (hr : cfg.rev = .single) (s0 s1 s2 d : Byte) :
    ErrOk cfg (errAfter (numericError s0 s1 s2 d)) := by
  unfold numericError
  split
  · exact errOk_clear cfg
  · exact errOk_errRegOf (by simp) (fun _ _ => hr)

/-! ### The Accumulator and its buffer (R24, R27) -/

theorem IsIdle.bufferOk {s : State} (h : IsIdle s) : BufferOk s := by
  obtain ⟨-, hlen, hbuf⟩ := h
  exact bufferOk_of_cells (bs := []) hbuf hlen

theorem IsIdle.accOk {s : State} (h : IsIdle s) (cfg : Config) : AccOk cfg s := by
  obtain ⟨hkind, hlen, -⟩ := h
  simp [AccOk, hkind, hlen]

/-- The kind of a chunk is the pending one, or the one its first byte selects in IDLE (R83, R84). -/
theorem kindFor_eq_some {s : State} {b : Byte} {k : FrameKind} :
    kindFor s b = some k ↔ s.accKind = some k ∨ (s.accKind = none ∧ classify b = some k) := by
  cases h : s.accKind <;> simp [kindFor, h]

/-- The first byte of the buffer stays the marker: in IDLE the chunk brings it, later chunks leave it alone. -/
theorem appended_marker {cfg : Config} {s : State} {k : FrameKind} {b : Byte} (h : AccOk cfg s)
    (hk : kindFor s b = some k) (rest : List Byte) :
    bufByte (appended k (b :: rest) s) 0 = some (marker k) := by
  obtain ⟨hnone, hsome⟩ := h
  rw [bufByte_appended]
  rcases kindFor_eq_some.1 hk with hk | ⟨hi, hb⟩
  · obtain ⟨hpos, -, hmark⟩ := hsome k hk
    rw [if_pos (by omega), hmark]
  · simp [hnone.1 hi, marker_of_classify hb]

theorem appended_accOk {cfg : Config} {s : State} {k : FrameKind} {b : Byte} {rest : List Byte} (h : AccOk cfg s)
    (hk : kindFor s b = some k) (hl : s.accLen + (b :: rest).length < lenOf cfg k) :
    AccOk cfg (appended k (b :: rest) s) := by
  refine ⟨by simp [appended], fun k' hk' => ?_⟩
  obtain rfl : k = k' := Option.some.inj hk'
  have hlen : (appended k (b :: rest) s).accLen = s.accLen + (b :: rest).length := rfl
  rw [hlen]
  refine ⟨?_, by omega, appended_marker h hk rest⟩
  rw [List.length_cons]; omega

/-! ### A dispatch (R31, R33) -/

/-- Below 3 the part counter advances without wrapping. -/
theorem raNext_succ : ∀ p : Fin 4, p ≠ 3 → p.val < 3 ∧ (p + 1).val = p.val + 1 := by decide

/-- The moves of the part counter in a dispatch: a part in sequence advances it, the last part and one out of sequence return it
to 0, every other frame leaves it alone. -/
theorem DispatchEffect.raNext_moves {cfg : Config} {s t : State} {k : FrameKind} (h : DispatchEffect cfg s t k) :
    t.raNext = s.raNext ∨ t.raNext = 0 ∨ (s.raNext.val < 3 ∧ t.raNext.val = s.raNext.val + 1) := by
  cases h with
  | screen => exact .inl ‹_›
  | outOfSequence => exact .inr (.inl ‹_›)
  | lastPart => exact .inr (.inl ‹_›)
  | part _ _ h3 _ _ _ hnext _ => exact .inr (.inr (hnext ▸ raNext_succ s.raNext h3))
  | save => exact .inl ‹_›
  | load => exact .inl ‹_›

theorem raOk_congr {cfg : Config} {s t : State} (h : RaOk cfg s) (hnext : t.raNext = s.raNext)
    (hcells : t.raGrid = s.raGrid) : RaOk cfg t := by
  rwa [RaOk, hnext, hcells]

theorem raOk_of_empty {s : State} (cfg : Config) (hnext : s.raNext = 0) (hcells : s.raGrid = []) : RaOk cfg s := by
  simp [RaOk, hnext, hcells]

/-- A part in sequence brings the 20 cells its counter step stands for; SINGLE has no parts. -/
theorem DispatchEffect.raOk {cfg : Config} {s t : State} {k : FrameKind} (h : DispatchEffect cfg s t k)
    (hra : RaOk cfg s) : RaOk cfg t := by
  cases h with
  | screen => exact raOk_congr hra ‹_› ‹_›
  | outOfSequence => exact raOk_of_empty cfg ‹_› ‹_›
  | lastPart => exact raOk_of_empty cfg ‹_› ‹_›
  | part g hrev h3 hg _ _ hnext hcells =>
    refine ⟨?_, by simp [hrev]⟩
    rw [hcells, hnext, (raNext_succ _ h3).2, List.length_append, hra.1, hg]
    omega
  | save => exact raOk_congr hra ‹_› ‹_›
  | load => exact raOk_congr hra ‹_› ‹_›

theorem DispatchEffect.errOk {cfg : Config} {s t : State} {k : FrameKind} (h : DispatchEffect cfg s t k) :
    ErrOk cfg t.err := by
  cases h with
  | screen _ s0 s1 s2 d hrev _ _ _ _ _ _ _ herr _ _ => exact herr ▸ errOk_numericError hrev s0 s1 s2 d
  | outOfSequence _ hrev _ _ herr _ _ => exact herr ▸ errOk_errRegOf (fun _ _ _ => hrev) (by simp)
  | lastPart _ _ _ _ _ herr _ _ => exact herr ▸ errOk_clear cfg
  | part _ _ _ _ _ herr _ _ => exact herr ▸ errOk_clear cfg
  | save _ _ herr _ _ => exact herr ▸ errOk_clear cfg
  | load _ _ herr _ _ => exact herr ▸ errOk_clear cfg

/-! ### The invariant -/

theorem legal_iff_legalUnder {s : State} {cfg : Config} (h : s.cfg = some cfg) : Legal s ↔ LegalUnder cfg s := by
  rw [Legal, h]

/-- With an IDLE Accumulator only the reassembly and the error register are left to check. -/
theorem legalUnder_of_idle {cfg : Config} {s : State} (hc : configOk cfg = true) (hi : IsIdle s) (hra : RaOk cfg s)
    (herr : ErrOk cfg s.err) : LegalUnder cfg s :=
  ⟨hc, hi.bufferOk, hi.accOk cfg, hra, herr⟩

theorem afterReset_legal {cfg : Config} (hc : configOk cfg = true) : Legal (State.afterReset cfg) :=
  (legal_iff_legalUnder rfl).2
    (legalUnder_of_idle hc ⟨rfl, rfl, rfl⟩ (raOk_of_empty cfg rfl rfl) (errOk_clear cfg))

/-- Every row of the transition table of DELIVER (R89) keeps the invariant. -/
theorem deliver_keeps_legalUnder {cfg : Config} {s t : State} {c : List Byte} (hcfg : s.cfg = some cfg)
    (hs : LegalUnder cfg s) (h : deliver c s = .next t) : t.cfg = some cfg ∧ LegalUnder cfg t := by
  obtain ⟨cfg', b, rest, rfl, ⟨hcfg', -⟩, hcases⟩ := deliver_cases h
  obtain rfl : cfg' = cfg := Option.some.inj (hcfg'.symm.trans hcfg)
  rcases hcases with ⟨-, rfl⟩ | ⟨k, hk, ⟨-, rfl⟩ | ⟨hl, rfl⟩ | ⟨-, frame, -, hd⟩⟩
  case inl =>
    exact ⟨hcfg, hs.config, hs.buffer, hs.acc, hs.ra, errOk_errRegOf (by simp) (by simp)⟩
  case inr.inl =>
    exact ⟨hcfg, legalUnder_of_idle hs.config ⟨rfl, rfl, rfl⟩ hs.ra (errOk_errRegOf (by simp) (by simp))⟩
  case inr.inr.inl =>
    exact ⟨hcfg, hs.config, appended_bufferOk hs.buffer k _, appended_accOk hs.acc hk hl, hs.ra, errOk_clear cfg'⟩
  case inr.inr.inr =>
    have hshell := dispatch_sameShell hd
    have heffect := dispatch_effect hd
    exact ⟨hshell.cfg.trans hcfg, legalUnder_of_idle hs.config ⟨hshell.accKind, hshell.accLen, hshell.accBuf⟩
      (heffect.raOk hs.ra) heffect.errOk⟩

/-- Every instruction keeps the invariant. Before the first RESET only a RESET answers at all. -/
theorem exec_keeps_legal {i : Instr} {s t : State} (hs : Legal s) (h : exec i s = .next t) : Legal t := by
  rcases exec_cases h with ⟨c, -, hc, rfl⟩ | ⟨-, ⟨cfg, hcfg, -⟩, rfl⟩ | ⟨-, -, hd⟩
  · exact (legal_iff_legalUnder rfl).2
      (legalUnder_of_idle hc ⟨rfl, rfl, rfl⟩ (raOk_of_empty c rfl rfl) (errOk_clear c))
  · obtain ⟨hc, hbuf, hacc, hra, herr⟩ := (legal_iff_legalUnder hcfg).1 hs
    exact (legal_iff_legalUnder (by exact hcfg)).2 ⟨hc, hbuf, hacc, hra, herr⟩
  · obtain ⟨cfg, -, -, -, ⟨hcfg, -⟩, -⟩ := deliver_cases hd
    obtain ⟨htcfg, ht⟩ := deliver_keeps_legalUnder hcfg ((legal_iff_legalUnder hcfg).1 hs) hd
    exact (legal_iff_legalUnder htcfg).2 ht

/-! ### A step -/

theorem fetchDecode_takes {cfg : Config} {r : Request} {s s1 : State} {i : Instr}
    (h : fetchDecode cfg r s = .next (i, s1)) : s1 = takeInput s := by
  unfold fetchDecode at h
  split at h
  · cases h; rfl
  · cases h
  · cases h

theorem fetchUnder_takes {under : Config} {r : Request} {s s1 : State} {i : Instr}
    (h : fetchUnder under r s = .next (i, s1)) : s1 = takeInput s := by
  unfold fetchUnder at h
  split at h
  · cases h
  · split at h
    · exact fetchDecode_takes h
    · cases h

/-- A fetch changes the queue of operations only. -/
theorem fetch_takes {s s1 : State} {i : Instr} (h : fetch s = .next (i, s1)) : s1 = takeInput s := by
  unfold fetch at h
  split at h
  · cases h
  · split at h
    · exact fetchDecode_takes h
    · exact fetchUnder_takes h
    · exact fetchUnder_takes h

/-- A step that answers has run one instruction, from the state with the oldest operation taken. -/
theorem exec_of_step {s t : State} (h : step s = .next t) : ∃ i, exec i (takeInput s) = .next t := by
  unfold step at h
  split at h
  · next i s1 hf => exact ⟨i, fetch_takes hf ▸ h⟩
  · cases h
  · cases h

/-- The invariant does not read the queue. -/
theorem takeInput_legal {s : State} (h : Legal s) : Legal (takeInput s) := by
  cases hcfg : s.cfg with
  | none => simpa [Legal, hcfg] using h
  | some cfg =>
    obtain ⟨hc, hbuf, hacc, hra, herr⟩ := (legal_iff_legalUnder hcfg).1 h
    exact (legal_iff_legalUnder ((takeInput_cfg s).trans hcfg)).2 ⟨hc, hbuf, hacc, hra, herr⟩

/-- Settles O43: a step is one instruction from the state with its operation taken, and every instruction keeps the invariant. -/
theorem stepKeepsTheInvariant : Obligations.StepKeepsTheInvariant := by
  intro s t hs h
  obtain ⟨i, hi⟩ := exec_of_step h
  exact exec_keeps_legal (takeInput_legal hs) hi

/-- Settles O30: RESET returns the counter to 0, STATUS and a chunk that completes no frame leave it alone, and a completed frame
moves it as its dispatch does. -/
theorem partCounterMoves : Obligations.PartCounterMoves := by
  intro i s t h
  rcases exec_cases h with ⟨c, -, -, rfl⟩ | ⟨-, -, rfl⟩ | ⟨-, -, hd⟩
  · exact .inr (.inl rfl)
  · exact .inl rfl
  · obtain ⟨cfg, b, rest, -, -, hcases⟩ := deliver_cases hd
    rcases hcases with ⟨-, rfl⟩ | ⟨k, -, ⟨-, rfl⟩ | ⟨-, rfl⟩ | ⟨-, frame, -, hdisp⟩⟩
    · exact .inl rfl
    · exact .inl rfl
    · exact .inl rfl
    · exact (dispatch_effect hdisp).raNext_moves

/-- Settles O42: the state after a RESET holds nothing, under any well-formed configuration and under the named one in particular;
before the first RESET nothing is held by definition. -/
theorem resetStatesAreLegal : Obligations.ResetStatesAreLegal := by
  refine ⟨fun cfg hc => afterReset_legal hc, afterReset_legal ?_, ?_⟩
  · decide
  · exact ⟨rfl, rfl, rfl, rfl, rfl, rfl⟩

end Sys2Proof.Machine
end

section
/-! PROOFS. The decoder drops no byte of a chunk, and so a step on a DELIVER is `deliver` of its bytes (30_encoding.md R58 to R67,
40_accumulator.md R81). -/

namespace Sys2Proof

/-- The layout of R63 fills the 165 bytes after the marker. -/
theorem decodeScreen_wireBytes {body : List Byte} (h : body.length = 165) :
    ∃ i, decodeScreen body = .ok i ∧ wireBytes i = marker .screen :: body := by
  have htok : tokenBytes (tokenPairs (body.take 160)) = body.take 160 := tokenBytes_tokenPairs (n := 80) (by simp [h])
  have h5 : (body.drop 160).length = 5 := by simp [h]
  match hd : body.drop 160, h5 with
  | [s0, s1, s2, d, l], _ =>
    refine ⟨.frameScreen (tokenPairs (body.take 160)) s0 s1 s2 d l, by rw [decodeScreen, hd], ?_⟩
    rw [wireBytes, htok, ← hd, List.take_append_drop]

/-- The layout of R64 and R65 fills the bytes after the marker: the filler, 40 bytes of tokens, the index byte. -/
theorem decodePart_wireBytes {cfg : Config} {body : List Byte} (hp : 1 ≤ cfg.partOff) (h : body.length = cfg.partOff + 40) :
    ∃ i, decodePart cfg body = .ok i ∧ wireBytes i = marker .screen :: body := by
  have hlen : (body.drop (cfg.partOff - 1)).length = 41 := by rw [List.length_drop]; omega
  have htok : tokenBytes (tokenPairs ((body.drop (cfg.partOff - 1)).take 40)) = (body.drop (cfg.partOff - 1)).take 40 :=
    tokenBytes_tokenPairs (n := 20) (by rw [List.length_take, hlen]; rfl)
  have h1 : ((body.drop (cfg.partOff - 1)).drop 40).length = 1 := by rw [List.length_drop, hlen]
  match hd : (body.drop (cfg.partOff - 1)).drop 40, h1 with
  | [x], _ =>
    refine ⟨.framePart (body.take (cfg.partOff - 1)) (tokenPairs ((body.drop (cfg.partOff - 1)).take 40)) x,
      by simp only [decodePart, hd], ?_⟩
    rw [wireBytes, htok, ← hd, List.take_append_drop, List.take_append_drop]

/-- Under a well-formed configuration a whole frame fills its kind's layout (R62 to R66). -/
theorem decodeFrame_wireBytes {cfg : Config} (hc : configOk cfg = true) {k : FrameKind} {body : List Byte}
    (h : body.length + 1 = lenOf cfg k) :
    ∃ i, decodeFrame cfg k body = .ok i ∧ wireBytes i = marker k :: body := by
  cases k with
  | screen =>
    obtain ⟨hsingle, hmulti⟩ := screenLength_of_configOk hc
    rw [lenOf] at h
    cases hr : cfg.rev with
    | single =>
      simp only [decodeFrame, hr]
      exact decodeScreen_wireBytes (by have := hsingle hr; omega)
    | multi =>
      simp only [decodeFrame, hr]
      obtain ⟨hlen, hp⟩ := hmulti hr
      exact decodePart_wireBytes hp (by omega)
  | save => exact ⟨.frameSave body, rfl, rfl⟩
  | load => exact ⟨.frameLoad body, rfl, rfl⟩

theorem decodeChunk_wireBytes {cfg : Config} (hc : configOk cfg = true) (idle : Bool) {c : List Byte} (hne : c ≠ []) :
    ∃ i, decodeChunk cfg idle c = .ok i ∧ wireBytes i = c := by
  obtain ⟨b, rest, rfl⟩ := List.exists_cons_of_ne_nil hne
  cases idle with
  | false => exact ⟨.deliver (b :: rest), rfl, rfl⟩
  | true =>
    cases hb : classify b with
    | none => exact ⟨.frameUnknown b rest, by simp [decodeChunk, hb], rfl⟩
    | some k =>
      by_cases hl : rest.length + 1 = lenOf cfg k
      · obtain ⟨i, hi, hw⟩ := decodeFrame_wireBytes hc hl
        exact ⟨i, by simp [decodeChunk, hb, hl, hi], by rw [hw, marker_of_classify hb]⟩
      · exact ⟨.deliver (b :: rest), by simp [decodeChunk, hb, hl], rfl⟩

namespace Machine

/-- A DELIVER issued under the latched configuration runs the instruction its chunk decodes to. -/
theorem step_decoded {cfg : Config} {s : State} {c : List Byte} {i : Instr} (hcfg : s.cfg = some cfg)
    (hi : decodeChunk cfg (idle s) c = .ok i) (rest : List Request) :
    step (withInputs (.deliver cfg c :: rest) s) = exec i (withInputs rest s) := by
  have hfetch : fetch (withInputs (.deliver cfg c :: rest) s) =
      fetchDecode cfg (.deliver cfg c) (withInputs (.deliver cfg c :: rest) s) := by
    simp [fetch, fetchUnder, hcfg]
  have hdecode : decode cfg (idle (withInputs (.deliver cfg c :: rest) s)) (.deliver cfg c) = .ok i := hi
  rw [step, hfetch, fetchDecode, hdecode]
  rfl

/-- Whichever row of the opcode table a chunk is, a step delivers its bytes. -/
theorem step_deliver {cfg : Config} {s : State} (hr : Ready s cfg) {c : List Byte} (hne : c ≠ []) (rest : List Request) :
    step (withInputs (.deliver cfg c :: rest) s) = deliver c (withInputs rest s) := by
  obtain ⟨i, hi, hw⟩ := decodeChunk_wireBytes hr.2 (idle s) hne
  rw [step_decoded hr.1 hi, exec_chunk (hw ▸ hne), hw]

end Machine

end Sys2Proof
end

section
/-! PROOFS. The protocol over chunks (20_memory.md R39, R51, R55, R57): what only RESET changes, how a segment is appended, what a
pending frame shows, and that the split of a frame into chunks is not seen. -/

namespace Sys2Proof.Machine

/-! ### Chunking (R57) -/

/-- A frame that is no part gives a frame event. -/
theorem DispatchEffect.frame_isSome {cfg : Config} {s t : State} {k : FrameKind} (h : DispatchEffect cfg s t k)
    (hk : k = .screen → cfg.rev = .single) : t.out.frame.isSome = true := by
  cases h with
  | screen _ _ _ _ _ _ _ _ _ _ _ _ hout => rw [hout]; rfl
  | outOfSequence _ hrev => simp [hk rfl] at hrev
  | lastPart _ _ _ _ hout => rw [hout]; rfl
  | part _ hrev => simp [hk rfl] at hrev
  | save _ hout => rw [hout]; rfl
  | load _ hout => rw [hout]; rfl

/-- The errors of the Accumulator (R121, R122) are not a dispatch's. -/
theorem DispatchEffect.error_not_accumulator {cfg : Config} {s t : State} {k : FrameKind} (h : DispatchEffect cfg s t k) :
    (∀ b, t.out.error ≠ some (.unknownFrameKind b)) ∧ ∀ e a, t.out.error ≠ some (.frameOverflow e a) := by
  cases h with
  | screen _ s0 s1 s2 d _ _ _ _ _ _ _ hout =>
    rw [hout, numericError]
    split <;> simp
  | outOfSequence _ _ _ hout => simp [hout]
  | lastPart _ _ _ _ hout => simp [hout]
  | part _ _ _ _ hout => simp [hout]
  | save _ hout => simp [hout]
  | load _ hout => simp [hout]

/-- A chunk that leaves the frame short is appended, whatever is still in the queue. -/
theorem step_segment {cfg : Config} {k : FrameKind} {s : State} {b : Byte} {r : List Byte} (hr : Ready s cfg)
    (hk : kindFor s b = some k) (hl : s.accLen + (b :: r).length < lenOf cfg k) (rest : List Request) :
    step (withInputs (.deliver cfg (b :: r) :: rest) s) = .next (withInputs rest (appended k (b :: r) s)) := by
  rw [step_deliver hr (List.cons_ne_nil b r)]
  exact deliver_segment (s := withInputs rest s) hr hk hl

/-- A chunk that completes the frame dispatches the buffered bytes and its own. -/
theorem step_completes {cfg : Config} {k : FrameKind} {s : State} {b : Byte} {r : List Byte} (hr : Ready s cfg)
    (hb : BufferOk s) (hk : kindFor s b = some k) (hl : s.accLen + (b :: r).length = lenOf cfg k) (rest : List Request) :
    step (withInputs (.deliver cfg (b :: r) :: rest) s) =
      dispatch cfg k (bufferBytes s ++ b :: r) (atDispatch (withInputs rest s)) := by
  rw [step_deliver hr (List.cons_ne_nil b r)]
  exact deliver_complete (s := withInputs rest s) hr hb hk hl

/-- The state of a dispatch does not show the chunks before the last: its Accumulator is IDLE, its flag clear, its record empty. -/
theorem atDispatch_appended (k : FrameKind) (c : List Byte) (s : State) (rest : List Request) :
    atDispatch (withInputs rest (appended k c s)) = atDispatch (withInputs rest s) := rfl

/-- The chunks `c :: cs` complete the frame of kind `k` whose first bytes, none when IDLE, are in the buffer of `s`. Every step
but the last only appends, so the last one dispatches the whole frame, from the state it would be dispatched from had it come in
one chunk. -/
theorem observe_chunks {cfg : Config} {k : FrameKind} {rest : List Request} {s t : State} {c : List Byte}
    {cs : List (List Byte)} (hr : Ready s cfg) (hb : BufferOk s) (hne : ∀ x ∈ c :: cs, x ≠ [])
    (hk : ∀ b ∈ c.head?, kindFor s b = some k) (hl : s.accLen + (c :: cs).flatten.length = lenOf cfg k)
    (hd : dispatch cfg k (bufferBytes s ++ (c :: cs).flatten) (atDispatch (withInputs rest s)) = .next t) :
    observe (cs.length + 1) (withInputs ((c :: cs).map (Request.deliver cfg) ++ rest) s) =
      .next (List.replicate cs.length OutputRecord.empty ++ [t.out], t) := by
  induction cs generalizing c s with
  | nil =>
    obtain ⟨b, r, rfl⟩ := List.exists_cons_of_ne_nil (hne c List.mem_cons_self)
    rw [List.flatten_singleton] at hl hd
    have hstep := (step_completes hr hb (hk b rfl) hl rest).trans hd
    simp [observe, hstep]
  | cons c' cs ih =>
    obtain ⟨hc, hcs⟩ := List.forall_mem_cons.1 hne
    obtain ⟨b, r, rfl⟩ := List.exists_cons_of_ne_nil hc
    have hpos : 0 < c'.length := List.length_pos_of_ne_nil (hcs c' List.mem_cons_self)
    rw [List.flatten_cons] at hl hd
    have hshort : s.accLen + (b :: r).length < lenOf cfg k := by
      rw [← hl, List.flatten_cons, List.length_append, List.length_append]
      omega
    have hstep := step_segment hr (hk b rfl) hshort ((c' :: cs).map (Request.deliver cfg) ++ rest)
    have htail := ih (s := appended k (b :: r) s) hr (appended_bufferOk hb k _) hcs (fun _ _ => rfl)
      (by rw [← hl, List.length_append, ← Nat.add_assoc]; rfl)
      (by rw [appended_bytes hb, List.append_assoc, atDispatch_appended]; exact hd)
    rw [List.length_cons, List.map_cons, List.cons_append, observe, hstep, andThen_next, htail]
    rfl

/-- Settles O15: the whole frame and its chunks end in the same dispatch, which answers because the frame is as long as its layout
and the reassembly is in order. -/
theorem chunkingInvariance : Obligations.ChunkingInvariance := by
  intro cfg s k frame chunks rest hs hcfg hidle hhead hlen hflat hne
  obtain ⟨hc, hb, hacc, hra, -⟩ := (legal_iff_legalUnder hcfg).1 hs
  have hr : Ready s cfg := ⟨hcfg, hc⟩
  have h0 : s.accLen = 0 := hacc.1.1 hidle
  have hempty : bufferBytes s = [] := List.eq_nil_of_length_eq_zero (hb.length.trans h0)
  have hkind : kindFor s (marker k) = some k := kindFor_eq_some.2 (.inr ⟨hidle, classify_marker k⟩)
  obtain ⟨t, hd⟩ : ∃ t, dispatch cfg k (bufferBytes s ++ frame) (atDispatch (withInputs rest s)) = .next t :=
    dispatch_total hc (by rw [hempty]; exact hlen) hra.1
  have heffect := dispatch_effect hd
  obtain ⟨hunknown, hoverflow⟩ := heffect.error_not_accumulator
  refine ⟨t, ?whole, (dispatch_sameShell hd).accKind, heffect.frame_isSome, hunknown, hoverflow, ?chunked⟩
  case whole =>
    obtain ⟨r, rfl⟩ := List.head?_eq_some_iff.1 hhead
    exact (step_completes hr hb hkind (by rw [h0, hlen, Nat.zero_add]) rest).trans hd
  case chunked =>
    subst hflat
    cases chunks with
    | nil => cases hhead
    | cons c cs =>
      obtain ⟨b, r, rfl⟩ := List.exists_cons_of_ne_nil (hne c List.mem_cons_self)
      obtain rfl : b = marker k := Option.some.inj hhead
      exact observe_chunks hr hb hne (by rintro _ ⟨⟩; exact hkind) (by rw [h0, hlen, Nat.zero_add]) hd

/-! ### The configuration (R55) -/

theorem deliver_keeps_cfg {c : List Byte} {s t : State} (h : deliver c s = .next t) : t.cfg = s.cfg := by
  obtain ⟨cfg, b, rest, -, -, hcases⟩ := deliver_cases h
  rcases hcases with ⟨-, rfl⟩ | ⟨k, -, ⟨-, rfl⟩ | ⟨-, rfl⟩ | ⟨-, frame, -, hd⟩⟩
  · rfl
  · rfl
  · rfl
  · exact (dispatch_sameShell hd).cfg

theorem fetchUnder_configChanged {cfg other : Config} {s : State} (hcfg : s.cfg = some cfg) (hne : other ≠ cfg)
    (r : Request) : fetchUnder other r s = .refused .configChanged := by
  simp [fetchUnder, hcfg, hne]

/-- Settles O6: of what an instruction can do only RESET writes the configuration, and a fetch compares the one an operation is
issued under with the latched one before it decodes. -/
theorem configurationChangesOnlyByReset : Obligations.ConfigurationChangesOnlyByReset := by
  constructor
  · intro i s t h
    rcases exec_cases h with ⟨c, rfl, -, rfl⟩ | ⟨-, -, rfl⟩ | ⟨-, -, hd⟩
    · exact .inl ⟨c, rfl, rfl⟩
    · exact .inr rfl
    · exact .inr (deliver_keeps_cfg hd)
  · intro cfg other c rest s hcfg hne hin
    have hfetch : fetch s = .refused .configChanged := by
      rcases hin with hin | hin <;> rw [fetch, hin] <;> exact fetchUnder_configChanged hcfg hne _
    rw [step, hfetch]

/-! ### A segment and a pending frame (R39, R51) -/

/-- Settles O10: the chunk is appended, and `bufByte_appended` says what every offset then holds. -/
theorem segmentIsAppendedInOrder : Obligations.SegmentIsAppendedInOrder := by
  intro cfg s k b rest hr hk hl
  refine ⟨appended k (b :: rest) s, deliver_segment hr (kindFor_eq_some.2 hk) hl, rfl, ?_, ?_, ?_⟩
  · intro i hi
    rw [bufByte_appended, if_neg (by omega), if_pos (by rw [List.length_cons]; omega), Nat.add_sub_cancel_left]
  · intro a ha
    rw [bufByte_appended, if_pos ha]
  · intro a ha
    rw [bufByte_appended, if_neg (by omega), if_neg (by rw [List.length_cons]; omega)]

/-- A DELIVER that leaves a frame pending has only appended: an unknown first byte is met in IDLE alone, and an overflow and a
completion end in IDLE. -/
theorem deliver_pending_out {c : List Byte} {s t : State} (h : deliver c s = .next t) (hp : t.accKind ≠ none) :
    t.out = OutputRecord.empty := by
  obtain ⟨cfg, b, rest, -, -, hcases⟩ := deliver_cases h
  rcases hcases with ⟨hk, rfl⟩ | ⟨k, -, ⟨-, rfl⟩ | ⟨-, rfl⟩ | ⟨-, frame, -, hd⟩⟩
  · obtain ⟨k, hs⟩ := Option.ne_none_iff_exists'.1 hp
    cases hk.symm.trans (kindFor_eq_some.2 (.inl hs))
  · exact absurd rfl hp
  · rfl
  · exact absurd (dispatch_sameShell hd).accKind hp

/-- Settles O14: RESET leaves no frame pending, STATUS has no output, and a DELIVER that leaves one pending has only appended. -/
theorem pendingFrameShowsNothing : Obligations.PendingFrameShowsNothing := by
  intro i s t h hp
  rcases exec_cases h with ⟨c, -, -, rfl⟩ | ⟨-, -, rfl⟩ | ⟨-, -, hd⟩
  · exact absurd rfl hp
  · rfl
  · exact deliver_pending_out hd hp

end Sys2Proof.Machine
end

section
/-! PROOFS. The decoder and the encoder are inverse to each other (30_encoding.md R58 to R67): the markers, each frame layout
as an equivalence between the bytes and the fields, then a whole chunk, one lemma per reading of it. -/

namespace Sys2Proof

/-! ### The markers (R60, R61) -/

theorem classify_eq_some_iff {b : Byte} {k : FrameKind} : classify b = some k ↔ b = marker k := by
  constructor
  · exact fun h => (marker_of_classify h).symm
  · rintro rfl
    exact classify_marker k

theorem classify_eq_none_iff {b : Byte} : classify b = none ↔ ∀ k, b ≠ marker k := by
  simp only [Option.eq_none_iff_forall_ne_some, ne_eq, classify_eq_some_iff]

/-- Settles O7: a kind's only byte is its marker, so no kind means none of the three markers. -/
theorem classifyIsExact : Obligations.ClassifyIsExact := by
  refine ⟨fun b k => classify_eq_some_iff, fun b => ?_, rfl, rfl, rfl⟩
  rw [classify_eq_none_iff]
  constructor
  · exact fun h => ⟨h .screen, h .save, h .load⟩
  · rintro ⟨hscreen, hsave, hload⟩ k
    cases k with
    | screen => exact hscreen
    | save => exact hsave
    | load => exact hload

/-! ### The layouts of the frames -/

/-- R63: the bytes after the marker of a SINGLE screen are 80 tokens and five bytes, and decode to just those. -/
theorem decodeScreen_eq_ok {body : List Byte} {i : Instr} :
    decodeScreen body = .ok i ↔
      ∃ ts s0 s1 s2 d l, ts.length = 80 ∧ body = tokenBytes ts ++ [s0, s1, s2, d, l] ∧
        i = .frameScreen ts s0 s1 s2 d l := by
  constructor
  · intro h
    unfold decodeScreen at h
    split at h
    · next s0 s1 s2 d l hd =>
      obtain rfl := Except.ok.inj h
      have hlen : (body.take 160).length = 2 * 80 := by
        have := congrArg List.length hd
        simp at this ⊢; omega
      refine ⟨tokenPairs (body.take 160), s0, s1, s2, d, l, tokenPairs_length hlen, ?_, rfl⟩
      rw [tokenBytes_tokenPairs hlen, ← hd, List.take_append_drop]
    · cases h
  · rintro ⟨ts, s0, s1, s2, d, l, hts, rfl, rfl⟩
    have hlen : (tokenBytes ts).length = 160 := by simp [hts]
    rw [decodeScreen, List.drop_left' hlen, List.take_left' hlen, tokenPairs_tokenBytes]

/-- R64, R65: the bytes after the marker of a part are the filler, 20 tokens and the index byte, and decode to just those. -/
theorem decodePart_eq_ok {cfg : Config} {body : List Byte} {i : Instr} (hp : 1 ≤ cfg.partOff) :
    decodePart cfg body = .ok i ↔
      ∃ filler ts x, filler.length + 1 = cfg.partOff ∧ ts.length = 20 ∧ body = filler ++ (tokenBytes ts ++ [x]) ∧
        i = .framePart filler ts x := by
  constructor
  · intro h
    simp only [decodePart] at h
    split at h
    · next x hd =>
      obtain rfl := Except.ok.inj h
      have hrest := congrArg List.length hd
      simp only [List.length_drop, List.length_singleton] at hrest
      have hlen : ((body.drop (cfg.partOff - 1)).take 40).length = 2 * 20 := by simp; omega
      refine ⟨body.take (cfg.partOff - 1), tokenPairs ((body.drop (cfg.partOff - 1)).take 40), x, ?_,
        tokenPairs_length hlen, ?_, rfl⟩
      · rw [List.length_take]; omega
      · rw [tokenBytes_tokenPairs hlen, ← hd, List.take_append_drop, List.take_append_drop]
    · cases h
  · rintro ⟨filler, ts, x, hf, hts, rfl, rfl⟩
    have hfiller : filler.length = cfg.partOff - 1 := by omega
    have htokens : (tokenBytes ts).length = 40 := by simp [hts]
    simp only [decodePart, List.drop_left' hfiller, List.take_left' hfiller, List.drop_left' htokens,
      List.take_left' htokens, tokenPairs_tokenBytes]

/-! ### A whole frame -/

open Laws.Wire (rowKind)

/-- A whole frame decodes to a frame row of its kind, in the form its layout gives it (R63 to R66). -/
theorem decodeFrame_row {cfg : Config} (hc : configOk cfg = true) {k : FrameKind} {body : List Byte} {i : Instr}
    (hl : body.length + 1 = lenOf cfg k) (h : decodeFrame cfg k body = .ok i) :
    rowKind i = some k ∧ i.wellFormed cfg = true := by
  cases k with
  | screen =>
    cases hr : cfg.rev with
    | single =>
      simp only [decodeFrame, hr] at h
      obtain ⟨ts, s0, s1, s2, d, l, hts, -, rfl⟩ := decodeScreen_eq_ok.1 h
      exact ⟨rfl, by simp [Instr.wellFormed, hr, hts]⟩
    | multi =>
      simp only [decodeFrame, hr] at h
      obtain ⟨filler, ts, x, hf, hts, -, rfl⟩ := (decodePart_eq_ok ((screenLength_of_configOk hc).2 hr).2).1 h
      exact ⟨rfl, by simp [Instr.wellFormed, hr, hf, hts]⟩
  | save =>
    obtain rfl := Except.ok.inj h
    exact ⟨rfl, decide_eq_true hl⟩
  | load =>
    obtain rfl := Except.ok.inj h
    exact ⟨rfl, decide_eq_true hl⟩

/-- A well-formed frame row is what its own bytes decode to, once they are known to be a whole frame. -/
theorem decodeFrame_wireBytes_tail {cfg : Config} (hc : configOk cfg = true) {k : FrameKind} {i : Instr}
    (hk : rowKind i = some k) (hw : i.wellFormed cfg = true) : decodeFrame cfg k (wireBytes i).tail = .ok i := by
  cases i with
  | reset => cases hk
  | deliver => cases hk
  | status => cases hk
  | frameUnknown => cases hk
  | frameScreen ts s0 s1 s2 d l =>
    obtain rfl := Option.some.inj hk
    simp only [Instr.wellFormed, Bool.and_eq_true, decide_eq_true_eq] at hw
    obtain ⟨hr, hts⟩ := hw
    simp only [decodeFrame, hr]
    exact decodeScreen_eq_ok.2 ⟨ts, s0, s1, s2, d, l, hts, rfl, rfl⟩
  | framePart filler ts x =>
    obtain rfl := Option.some.inj hk
    simp only [Instr.wellFormed, Bool.and_eq_true, decide_eq_true_eq] at hw
    obtain ⟨⟨hr, hf⟩, hts⟩ := hw
    simp only [decodeFrame, hr]
    exact (decodePart_eq_ok ((screenLength_of_configOk hc).2 hr).2).2 ⟨filler, ts, x, hf, hts, rfl, rfl⟩
  | frameSave payload => obtain rfl := Option.some.inj hk; rfl
  | frameLoad payload => obtain rfl := Option.some.inj hk; rfl

theorem wire_statement (i : Instr) : Laws.Wire.Statement i := by
  cases i with
  | reset c => exact Laws.Wire.reset c
  | deliver c => exact Laws.Wire.deliver c
  | status => exact Laws.Wire.status
  | frameScreen ts s0 s1 s2 d l => exact Laws.Wire.frameScreen ts s0 s1 s2 d l
  | framePart filler ts x => exact Laws.Wire.framePart filler ts x
  | frameSave payload => exact Laws.Wire.frameSave payload
  | frameLoad payload => exact Laws.Wire.frameLoad payload
  | frameUnknown b rest => exact Laws.Wire.frameUnknown b rest

/-- The bytes of a well-formed frame row are its kind's marker and a body that fills the kind's length (R60, R62). -/
theorem wireBytes_frame {cfg : Config} (hc : configOk cfg = true) {k : FrameKind} {i : Instr} (hk : rowKind i = some k)
    (hw : i.wellFormed cfg = true) :
    wireBytes i = marker k :: (wireBytes i).tail ∧ (wireBytes i).tail.length + 1 = lenOf cfg k := by
  obtain ⟨hhead, hlen⟩ := (wire_statement i cfg hc hw).1 k hk
  have hcons := List.eq_cons_of_mem_head? hhead
  refine ⟨hcons, ?_⟩
  rw [← hlen, hcons]; rfl

/-- The table's condition of a frame row: it applies in IDLE. -/
theorem applies_frame {k : FrameKind} {i : Instr} (hk : rowKind i = some k) (cfg : Config) (idle : Bool) :
    i.applies cfg idle = idle := by
  cases i with
  | reset => cases hk
  | deliver => cases hk
  | status => cases hk
  | frameUnknown => cases hk
  | frameScreen | framePart | frameSave | frameLoad => rfl

/-! ### A chunk -/

/-- A pending frame: no byte is looked at (R84). -/
theorem decodeChunk_pending (cfg : Config) {c : List Byte} (hne : c ≠ []) :
    decodeChunk cfg false c = .ok (.deliver c) := by
  obtain ⟨b, rest, rfl⟩ := List.exists_cons_of_ne_nil hne
  rfl

theorem decodeChunk_unknown (cfg : Config) {b : Byte} (hb : classify b = none) (rest : List Byte) :
    decodeChunk cfg true (b :: rest) = .ok (.frameUnknown b rest) := by
  simp [decodeChunk, hb]

theorem segmentOf_marker_cons (cfg : Config) (k : FrameKind) (body : List Byte) :
    segmentOf cfg (marker k :: body) = decide (body.length + 1 ≠ lenOf cfg k) := by
  simp [segmentOf]

theorem exists_marker_of_segmentOf {cfg : Config} {c : List Byte} (h : segmentOf cfg c = true) :
    ∃ k body, c = marker k :: body ∧ body.length + 1 ≠ lenOf cfg k := by
  cases c with
  | nil => cases h
  | cons b body =>
    cases hb : classify b with
    | none => simp [segmentOf, hb] at h
    | some k => exact ⟨k, body, by rw [marker_of_classify hb], by simpa [segmentOf, hb] using h⟩

theorem decodeChunk_segment {cfg : Config} {k : FrameKind} {body : List Byte} (hl : body.length + 1 ≠ lenOf cfg k) :
    decodeChunk cfg true (marker k :: body) = .ok (.deliver (marker k :: body)) := by
  simp [decodeChunk, hl]

theorem decodeChunk_frame {cfg : Config} {k : FrameKind} {body : List Byte} (hl : body.length + 1 = lenOf cfg k) :
    decodeChunk cfg true (marker k :: body) = decodeFrame cfg k body := by
  simp [decodeChunk, hl]

/-- What the decoder answers is well formed, and its row applies: one case per reason the decoder has for its answer. -/
theorem decodeChunk_wellFormed_applies {cfg : Config} (hc : configOk cfg = true) {idle : Bool} {c : List Byte} {i : Instr}
    (h : decodeChunk cfg idle c = .ok i) : i.wellFormed cfg = true ∧ i.applies cfg idle = true := by
  cases c with
  | nil => cases h
  | cons b body =>
    cases idle with
    | false =>
      obtain rfl := Except.ok.inj ((decodeChunk_pending cfg (List.cons_ne_nil b body)).symm.trans h)
      exact ⟨rfl, rfl⟩
    | true =>
      cases hb : classify b with
      | none =>
        obtain rfl := Except.ok.inj ((decodeChunk_unknown cfg hb body).symm.trans h)
        exact ⟨decide_eq_true hb, rfl⟩
      | some k =>
        obtain rfl := marker_of_classify hb
        by_cases hl : body.length + 1 = lenOf cfg k
        · obtain ⟨hk, hw⟩ := decodeFrame_row hc hl ((decodeChunk_frame hl).symm.trans h)
          exact ⟨hw, applies_frame hk cfg true⟩
        · obtain rfl := Except.ok.inj ((decodeChunk_segment hl).symm.trans h)
          exact ⟨rfl, by simp [Instr.applies, segmentOf_marker_cons, hl]⟩

/-- The bytes of a well-formed frame row, met in IDLE, are read as that row. -/
theorem decodeChunk_frameRow {cfg : Config} (hc : configOk cfg = true) {k : FrameKind} {i : Instr} (hk : rowKind i = some k)
    (hw : i.wellFormed cfg = true) : decodeChunk cfg true (wireBytes i) = .ok i := by
  obtain ⟨hcons, hlen⟩ := wireBytes_frame hc hk hw
  rw [hcons, decodeChunk_frame hlen, decodeFrame_wireBytes_tail hc hk hw]

/-- A non-empty chunk is read as DELIVER when it continues a frame or is a segment of one. -/
theorem decodeChunk_deliver {cfg : Config} {idle : Bool} {c : List Byte} (hne : c ≠ [])
    (ha : (Instr.deliver c).applies cfg idle = true) : decodeChunk cfg idle c = .ok (.deliver c) := by
  cases idle with
  | false => exact decodeChunk_pending cfg hne
  | true =>
    obtain ⟨k, body, rfl, hl⟩ := exists_marker_of_segmentOf (cfg := cfg) (c := c) (by simpa [Instr.applies] using ha)
    exact decodeChunk_segment hl

/-- Settles O38: the host operations carry their operand whole; a frame row applies in IDLE, where its bytes are read by its
layout; DELIVER and FRAME_UNKNOWN apply exactly where the decoder answers them. -/
theorem decodeOfEncodeIsTheInstruction : Obligations.DecodeOfEncodeIsTheInstruction := by
  intro cfg idle i hc hw ha
  have hframe : ∀ k, rowKind i = some k → decodeChunk cfg idle (wireBytes i) = .ok i := by
    intro k hk
    obtain rfl : idle = true := (applies_frame hk cfg idle).symm.trans ha
    exact decodeChunk_frameRow hc hk hw
  cases i with
  | reset c => rfl
  | status => rfl
  | deliver c =>
    have hne : c ≠ [] := by simpa [Instr.wellFormed] using hw
    exact decodeChunk_deliver hne ha
  | frameUnknown b rest =>
    obtain rfl : idle = true := ha
    exact decodeChunk_unknown cfg (of_decide_eq_true hw) rest
  | frameScreen => exact hframe .screen rfl
  | framePart => exact hframe .screen rfl
  | frameSave => exact hframe .save rfl
  | frameLoad => exact hframe .load rfl

/-- Settles O39: `decodeChunk_wireBytes` gives the instruction, and every instruction the decoder answers is well formed with its
row applying. -/
theorem everyChunkIsOneInstruction : Obligations.EveryChunkIsOneInstruction := by
  intro cfg idle c hc hne
  obtain ⟨i, hi, hbytes⟩ := decodeChunk_wireBytes hc idle hne
  obtain ⟨hw, ha⟩ := decodeChunk_wellFormed_applies hc hi
  exact ⟨i, hi, hbytes, hw, ha⟩

/-- Settles O40: each chunk is read by the one rule that applies to it: whole frames of three kinds, a segment, an unknown
first byte, a pending frame. -/
theorem writtenOutChunksDecode : Obligations.WrittenOutChunksDecode := by
  have hsingle : configOk (defaultConfig .single leastTileMap) = true := by decide
  have hmulti : configOk (defaultConfig .multi leastTileMap) = true := by decide
  have hsave4 : configOk { defaultConfig .multi leastTileMap with lenSave := 4 } = true := by decide
  refine ⟨?load, ?segment, ?unknown, ?save, ?part, ?pending⟩
  case load => exact decodeChunk_frameRow hsingle (i := .frameLoad _) rfl (by decide)
  case segment => exact decodeChunk_segment (k := .screen) (by decide)
  case unknown => exact decodeChunk_unknown _ (by decide) _
  case save => exact decodeChunk_frameRow hsave4 (i := .frameSave _) rfl (by decide)
  case part =>
    exact decodeChunk_frameRow hmulti (i := .framePart [] (List.replicate 20 ⟨0x32#8, 0x30#8⟩) 0x33#8) rfl (by decide)
  case pending => exact decodeChunk_pending _ (by decide)

theorem exec_eq_deliver_of_wireBytes {i : Instr} {b : Byte} {r : List Byte} (h : wireBytes i = b :: r)
    (s : Machine.State) : Machine.exec i s = Machine.exec (.deliver (b :: r)) s := by
  rw [Machine.exec_chunk (h ▸ List.cons_ne_nil b r), h]
  rfl

/-- Settles O16: a row with wire bytes is the DELIVER of them, and the bytes are those of the layouts. -/
theorem frameRowIsItsChunk : Obligations.FrameRowIsItsChunk := by
  intro s tokens filler payload rest s0 s1 s2 d l x b
  exact ⟨exec_eq_deliver_of_wireBytes rfl s, exec_eq_deliver_of_wireBytes rfl s, exec_eq_deliver_of_wireBytes rfl s,
    exec_eq_deliver_of_wireBytes rfl s, exec_eq_deliver_of_wireBytes rfl s⟩

end Sys2Proof
end

section
/-! PROOFS. Decimal digits and the numeric fields of a screen (30_encoding.md R69 to R72). -/

namespace Sys2Proof.Machine

theorem isDigit_iff {b : Byte} : isDigit b = true ↔ 0x30 ≤ b.toNat ∧ b.toNat ≤ 0x39 := by
  simp only [isDigit, Bool.and_eq_true, decide_eq_true_eq]

theorem digit_le_nine {b : Byte} (h : isDigit b = true) : digit b ≤ 9 := by
  have := (isDigit_iff.1 h).2
  unfold digit
  omega

/-- Settles O19: the three readings are comparisons of the byte's value, and `isDigit_iff` bounds a digit by 9. -/
theorem digitsAndLoseByte : Obligations.DigitsAndLoseByte :=
  ⟨fun _ => isDigit_iff, fun _ h => ⟨rfl, digit_le_nine h⟩, fun _ => decide_eq_true_iff⟩

theorem scoreValid_iff {s0 s1 s2 : Byte} :
    scoreValid s0 s1 s2 = true ↔ isDigit s0 = true ∧ isDigit s1 = true ∧ isDigit s2 = true := by
  simp only [scoreValid, Bool.and_eq_true, and_assoc]

/-- Three digits are at most 999, which fits the ten bits of the field. -/
theorem scoreOf_toNat {s0 s1 s2 : Byte} (h : scoreValid s0 s1 s2 = true) :
    (scoreOf s0 s1 s2).toNat = 100 * digit s0 + 10 * digit s1 + digit s2 ∧ (scoreOf s0 s1 s2).toNat ≤ 999 := by
  obtain ⟨h0, h1, h2⟩ := scoreValid_iff.1 h
  have hle : 100 * digit s0 + 10 * digit s1 + digit s2 ≤ 999 := by
    have := digit_le_nine h0
    have := digit_le_nine h1
    have := digit_le_nine h2
    omega
  have hval : (scoreOf s0 s1 s2).toNat = 100 * digit s0 + 10 * digit s1 + digit s2 := by
    rw [scoreOf, if_pos h, BitVec.toNat_ofNat, Nat.mod_eq_of_lt (by omega)]
  exact ⟨hval, hval ▸ hle⟩

theorem difficultyOf_toNat {d : Byte} (h : difficultyValid d = true) :
    (difficultyOf d).toNat = digit d ∧ (difficultyOf d).toNat ≤ 9 := by
  have hle : digit d ≤ 9 := digit_le_nine h
  have hval : (difficultyOf d).toNat = digit d := by
    rw [difficultyOf, if_pos h, BitVec.toNat_ofNat, Nat.mod_eq_of_lt (by omega)]
  exact ⟨hval, hval ▸ hle⟩

/-- Settles O20: with digits of at most 9 the decimal values fit the ten and the four bits they are held in. -/
theorem validNumericFieldsHaveTheirDecimalValue : Obligations.ValidNumericFieldsHaveTheirDecimalValue :=
  fun _ _ _ _ => ⟨scoreValid_iff, scoreOf_toNat, Iff.rfl, difficultyOf_toNat⟩

end Sys2Proof.Machine
end

section
/-! PROOFS. Four parts in order (43_part_reassembler.md R109 to R114, 30_encoding.md R75): a part row in a ready IDLE core is one
step of the reassembly, and four such steps leave one grid. -/

namespace Sys2Proof.Machine

/-! ### A part row in a ready IDLE core -/

theorem IsIdle.of_legalUnder {cfg : Config} {s : State} (h : LegalUnder cfg s) (hk : s.accKind = none) : IsIdle s := by
  obtain ⟨-, ⟨-, hoffsets⟩, ⟨hnone, -⟩, -, -⟩ := h
  have hlen : s.accLen = 0 := hnone.1 hk
  exact ⟨hk, hlen, by simpa [hlen] using hoffsets⟩

theorem IsIdle.bufferBytes_eq_nil {s : State} (h : IsIdle s) : bufferBytes s = [] := by
  rw [bufferBytes, h.2.2, List.map_nil]

/-- The reassembler takes the index byte and the 20 tiles out of a part body (R65, R109). -/
theorem partReceive_body (cfg : Config) {ts : List Token} (hts : ts.length = 20) (x : Byte) (s : State) :
    partReceive cfg (tokenBytes ts ++ [x]) s = partStep x (ts.map (tok cfg)) s := by
  have hlen : (tokenBytes ts).length = 40 := by simp [hts]
  rw [partReceive, List.drop_left' hlen, tokens_tokenBytes_append cfg ts [x] hts]

/-- A MULTI screen frame hands its part body, the 41 bytes from PART_OFF on, to the reassembler (R64, R96). -/
theorem dispatch_part {cfg : Config} (hrev : cfg.rev = .multi) {filler : List Byte} {ts : List Token}
    (hf : filler.length + 1 = cfg.partOff) (hts : ts.length = 20) (x : Byte) (s : State) :
    dispatch cfg .screen (wireBytes (.framePart filler ts x)) s = partStep x (ts.map (tok cfg)) s := by
  have hdrop : (wireBytes (.framePart filler ts x)).drop cfg.partOff = tokenBytes ts ++ [x] := by
    rw [wireBytes, ← List.cons_append]
    exact List.drop_left' hf
  have htake : (tokenBytes ts ++ [x]).take 41 = tokenBytes ts ++ [x] := List.take_of_length_le (by simp [hts])
  rw [← partReceive_body cfg hts x s]
  simp only [dispatch, hrev, hdrop, htake]

/-- FRAME_PART in a ready IDLE MULTI core is one step of the reassembly, from the state a complete frame is dispatched in. -/
theorem exec_framePart {cfg : Config} {s : State} (hr : Ready s cfg) (hrev : cfg.rev = .multi) (hi : IsIdle s)
    {filler : List Byte} {ts : List Token} (hf : filler.length + 1 = cfg.partOff) (hts : ts.length = 20) (x : Byte) :
    exec (.framePart filler ts x) s = partStep x (ts.map (tok cfg)) (atDispatch s) := by
  have hkind : kindFor s (marker .screen) = some .screen :=
    kindFor_eq_some.2 (.inr ⟨hi.1, classify_marker .screen⟩)
  have hlen : s.accLen + (wireBytes (.framePart filler ts x)).length = lenOf cfg .screen := by
    have := ((screenLength_of_configOk hr.2).2 hrev).1
    simp [wireBytes, lenOf, hi.2.1, hts]
    omega
  rw [← dispatch_part hrev hf hts x (atDispatch s)]
  calc exec (.framePart filler ts x) s = deliver (wireBytes (.framePart filler ts x)) s := rfl
    _ = dispatch cfg .screen (bufferBytes s ++ wireBytes (.framePart filler ts x)) (atDispatch s) :=
      deliver_complete hr hi.bufferOk hkind hlen
    _ = dispatch cfg .screen (wireBytes (.framePart filler ts x)) (atDispatch s) := by
      rw [hi.bufferBytes_eq_nil, List.nil_append]

/-! ### The expected part -/

/-- A ready IDLE MULTI core that holds the cells `g` and expects part `p`. -/
structure Expecting (cfg : Config) (p : Fin 4) (g : List TileId) (s : State) : Prop where
  ready : Ready s cfg
  rev   : cfg.rev = .multi
  idle  : IsIdle s
  next  : s.raNext = p
  cells : s.raGrid = g

section
variable {cfg : Config} {p : Fin 4} {g : List TileId} {s : State} {filler : List Byte} {ts : List Token}

/-- R112, R114: the expected part, not the last, brings its 20 cells, and the next part is expected. -/
theorem Expecting.exec_part (h : Expecting cfg p g s) (hp : p ≠ 3) (hf : filler.length + 1 = cfg.partOff)
    (hts : ts.length = 20) :
    ∃ t, exec (.framePart filler ts (partIndexByte p)) s = .next t ∧ t.out = OutputRecord.empty ∧
      Expecting cfg (p + 1) (g ++ ts.map (tok cfg)) t := by
  obtain ⟨hr, hrev, hi, rfl, rfl⟩ := h
  refine ⟨{ atDispatch s with raGrid := s.raGrid ++ ts.map (tok cfg), raNext := s.raNext + 1 }, ?_, rfl,
    hr, hrev, ⟨rfl, rfl, rfl⟩, rfl, rfl⟩
  rw [exec_framePart hr hrev hi hf hts]
  exact partStep_eq_next.2 (.inr (.inr ⟨rfl, hp, rfl⟩))

/-- R113: the last part emits its 20 cells after the 60 held, and part 0 is expected again. -/
theorem Expecting.exec_lastPart (h : Expecting cfg 3 g s) (hg : g.length = 60) (hf : filler.length + 1 = cfg.partOff)
    (hts : ts.length = 20) :
    ∃ t, exec (.framePart filler ts (partIndexByte 3)) s = .next t ∧
      t.out = { frame := some (.gridFrame (g ++ ts.map (tok cfg))), error := none } ∧ Expecting cfg 0 [] t := by
  obtain ⟨hr, hrev, hi, hnext, rfl⟩ := h
  refine ⟨raClear (emit (.gridFrame (s.raGrid ++ ts.map (tok cfg))) (atDispatch s)), ?_, rfl,
    hr, hrev, ⟨rfl, rfl, rfl⟩, rfl, rfl⟩
  rw [exec_framePart hr hrev hi hf hts]
  exact partStep_eq_next.2 (.inr (.inl ⟨by rw [atDispatch_raNext, hnext], hnext, by simp [hg, hts], rfl⟩))

end

/-! ### The grid of four parts -/

/-- In a row of blocks of length `n`, element `j` of block `p` is element `n * p + j`. -/
theorem getElem?_flatten_block {α : Type} {n j : Nat} (hj : j < n) {bs : List (List α)} (hb : ∀ b ∈ bs, b.length = n)
    (p : Nat) : bs.flatten[n * p + j]? = bs[p]?.bind (·[j]?) := by
  induction bs generalizing p with
  | nil => simp
  | cons b bs ih =>
    obtain ⟨hlen, hbs⟩ := List.forall_mem_cons.1 hb
    cases p with
    | zero => simp [List.getElem?_append_left (hlen ▸ hj)]
    | succ p =>
      have hidx : n * (p + 1) + j - b.length = n * p + j := by rw [hlen, Nat.mul_succ]; omega
      have hge : b.length ≤ n * (p + 1) + j := by rw [hlen, Nat.mul_succ]; omega
      rw [List.flatten_cons, List.getElem?_append_right hge, hidx, ih hbs, List.getElem?_cons_succ]

/-- R75: cell `20p + j` of the grid of four parts is the tile of token `j` of part `p`. -/
theorem partsGrid_getElem? (cfg : Config) {parts : Fin 4 → List Token} (hts : ∀ p, (parts p).length = 20) (p : Fin 4)
    {j : Nat} (hj : j < 20) :
    ((List.ofFn parts).flatten.map (tok cfg))[20 * p.val + j]? = ((parts p)[j]?).map (tok cfg) := by
  have hblocks : ∀ b ∈ List.ofFn parts, b.length = 20 := List.forall_mem_ofFn_iff.2 hts
  rw [List.getElem?_map, getElem?_flatten_block hj hblocks, List.getElem?_ofFn, dif_pos p.isLt]
  rfl

/-- Settles O28: a legal IDLE core that expects part 0 holds no cell, each part takes it to the next one, and the last emits the
tiles of all four in order. -/
theorem fourPartsInOrderMakeOneGrid : Obligations.FourPartsInOrderMakeOneGrid := by
  intro cfg s fillers parts hs hcfg hrev hk hnext hf hts
  have hu : LegalUnder cfg s := (legal_iff_legalUnder hcfg).1 hs
  have hempty : s.raGrid = [] := List.eq_nil_of_length_eq_zero (by rw [hu.ra.1, hnext]; rfl)
  have e0 : Expecting cfg 0 [] s := ⟨⟨hcfg, hu.config⟩, hrev, .of_legalUnder hu hk, hnext, hempty⟩
  obtain ⟨t1, h1, o1, e1⟩ := e0.exec_part (by decide) (hf 0) (hts 0)
  obtain ⟨t2, h2, o2, e2⟩ := e1.exec_part (by decide) (hf 1) (hts 1)
  obtain ⟨t3, h3, o3, e3⟩ := e2.exec_part (by decide) (hf 2) (hts 2)
  obtain ⟨t4, h4, o4, e4⟩ := e3.exec_lastPart (by simp [hts]) (hf 3) (hts 3)
  have hgrid : [] ++ (parts 0).map (tok cfg) ++ (parts 1).map (tok cfg) ++ (parts 2).map (tok cfg) ++
      (parts 3).map (tok cfg) = (List.ofFn parts).flatten.map (tok cfg) := by
    simp [List.ofFn_succ]
  rw [hgrid] at o4
  refine ⟨t1, t2, t3, t4, _, h1, h2, h3, h4, by rw [o1]; rfl, by rw [o2]; rfl, by rw [o3]; rfl, o4, ?_, ?_,
    e4.next, e4.cells⟩
  · rw [← hgrid]
    simp [hts]
  · exact fun p j hj => partsGrid_getElem? cfg hts p hj

end Sys2Proof.Machine
end

section
/-! PROOFS. The Frame Accumulator (40_accumulator.md R82, R85, R87, R88): the refusal of an empty chunk, the drop at an overflow, the
dispatch at a completion, and how a pending frame can end. -/

namespace Sys2Proof.Machine

/-! ### A whole frame and an overflow (R85, R87) -/

/-- Settles O11: in a legal state the buffer holds the frame's first bytes in order, so a completing chunk dispatches them and its
own, and a shorter one is appended to them. -/
theorem completionDispatchesTheWholeFrame : Obligations.CompletionDispatchesTheWholeFrame := by
  intro cfg s k b rest hs hcfg hk
  obtain ⟨hc, hb, -, -, -⟩ := (legal_iff_legalUnder hcfg).1 hs
  have hkind : kindFor s b = some k := kindFor_eq_some.2 hk
  refine ⟨fun hl => deliver_complete ⟨hcfg, hc⟩ hb hkind hl, fun hl => ?_⟩
  exact ⟨appended k (b :: rest) s, deliver_segment ⟨hcfg, hc⟩ hkind hl, rfl, rfl, appended_bytes hb k _, rfl⟩

/-- Settles O9: the overflow is raised and the Accumulator emptied, and `err` holds the register form of the two lengths. -/
theorem overflowDropsFrameAndChunk : Obligations.OverflowDropsFrameAndChunk := by
  intro cfg s k b rest hr hk hl
  exact deliver_overflow hr (kindFor_eq_some.2 hk) hl

/-! ### A pending frame (R88) -/

/-- What a DELIVER does to a pending frame: an overflow drops it, a shorter chunk makes it longer, and a chunk that fits it exactly
ends it. Its first byte selects nothing. -/
theorem deliver_pending_cases {cfg : Config} {k : FrameKind} {c : List Byte} {s t : State} (hcfg : s.cfg = some cfg)
    (hk : s.accKind = some k) (h : deliver c s = .next t) :
    (t.accKind = some k ∧ t.accLen = s.accLen + c.length) ∨
      (t.accKind = none ∧ s.accLen + c.length = lenOf cfg k) ∨
      (t.accKind = none ∧ t.out.error = some (.frameOverflow (lenOf cfg k) (s.accLen + c.length))) := by
  obtain ⟨cfg', b, rest, rfl, ⟨hcfg', -⟩, hcases⟩ := deliver_cases h
  obtain rfl : cfg' = cfg := Option.some.inj (hcfg'.symm.trans hcfg)
  have hkind : kindFor s b = some k := kindFor_eq_some.2 (.inl hk)
  rcases hcases with ⟨hnone, -⟩ | ⟨k', hk', hcases⟩
  · cases hkind.symm.trans hnone
  · obtain rfl : k' = k := Option.some.inj (hk'.symm.trans hkind)
    rcases hcases with ⟨-, rfl⟩ | ⟨-, rfl⟩ | ⟨hl, frame, -, hd⟩
    · exact .inr (.inr ⟨rfl, rfl⟩)
    · exact .inl ⟨rfl, rfl⟩
    · exact .inr (.inl ⟨(dispatch_sameShell hd).accKind, hl⟩)

/-- Settles O13: STATUS has no wire bytes and leaves the frame alone, RESET is one of the ways it ends, and every other instruction
is the DELIVER of its wire bytes. -/
theorem pendingFrameEndsOnlyByOverflowCompletionOrReset :
    Obligations.PendingFrameEndsOnlyByOverflowCompletionOrReset := by
  intro cfg i s t k hcfg hk h
  rcases exec_cases h with ⟨c, rfl, -, -⟩ | ⟨rfl, -, rfl⟩ | ⟨-, -, hd⟩
  · exact .inr (.inl ⟨c, rfl⟩)
  · exact .inl ⟨hk, rfl⟩
  · rcases deliver_pending_cases hcfg hk hd with hpending | hcomplete | hoverflow
    · exact .inl hpending
    · exact .inr (.inr (.inl hcomplete))
    · exact .inr (.inr (.inr hoverflow))

/-! ### An empty chunk (R82) -/

/-- A fetch finds the operation issued under the latched configuration, and the decoder refuses its empty chunk. -/
theorem fetch_emptyChunk {cfg : Config} {s : State} {rest : List Request} (hcfg : s.cfg = some cfg)
    (hin : s.inputs = .deliver cfg [] :: rest) : fetch s = .refused .emptyChunk := by
  simp [fetch, hin, fetchUnder, hcfg, fetchDecode, decode, decodeChunk]

/-- Settles O4: DELIVER looks at its chunk before it reads the state, and a step already stops at the fetch. -/
theorem emptyChunkIsRefused : Obligations.EmptyChunkIsRefused := by
  refine ⟨fun s => rfl, fun cfg rest s hcfg hin => ?_⟩
  rw [step, fetch_emptyChunk hcfg hin]

end Sys2Proof.Machine
end

section
/-! PROOFS. The Token Decoder (41_token_decoder.md R90 to R95): the canonical table of a tile function, what TOK gives for a
recognised and for an unrecognised token, and the pairs of bytes TOKENS reads. -/

namespace Sys2Proof

/-! ### Tokens and their keys -/

theorem tokenKey_lt (t : Token) : tokenKey t < 65536 := by
  have h0 := t.t0.isLt
  have h1 := t.t1.isLt
  unfold tokenKey
  omega

/-- The token whose key is `n`. -/
def tokenAt (n : Nat) : Token := ⟨BitVec.ofNat 8 (n / 256), BitVec.ofNat 8 n⟩

theorem tokenKey_tokenAt {n : Nat} (h : n < 65536) : tokenKey (tokenAt n) = n := by
  simp only [tokenKey, tokenAt, BitVec.toNat_ofNat]
  omega

@[simp] theorem tokenAt_tokenKey (t : Token) : tokenAt (tokenKey t) = t := by
  obtain ⟨t0, t1⟩ := t
  simp only [tokenAt, tokenKey, Token.mk.injEq]
  constructor <;> bv_omega

/-! ### The canonical table of a tile function (R90, R95) -/

/-- A canonical table lists exactly the tokens it recognises, with their codes. -/
theorem mem_iff_tileLookup {m : List TileEntry} (hm : TileMapCanonical m) (e : TileEntry) :
    e ∈ m ↔ tileLookup m e.token = some e.code := by
  constructor
  · exact tileLookup_of_mem hm
  · intro h
    obtain ⟨⟨t, c⟩, hx, rfl, rfl⟩ := exists_mem_of_tileLookup h
    exact hx

/-- Equal functions are equal canonical tables: their members are the same, and the order of the keys fixes where each stands. -/
theorem tileMap_ext {m m' : List TileEntry} (hm : TileMapCanonical m) (hm' : TileMapCanonical m')
    (h : ∀ t, tileLookup m t = tileLookup m' t) : m = m' := by
  have hmem : ∀ e, e ∈ m ↔ e ∈ m' := fun e => by rw [mem_iff_tileLookup hm, mem_iff_tileLookup hm', h]
  have hasymm : Std.Asymm fun x y : TileEntry => tokenKey x.token < tokenKey y.token := ⟨fun _ _ => lt_asymm⟩
  exact List.Pairwise.eq_of_mem_iff hm hm' hmem

/-- The entry `f` gives the token whose key is `n`, if it recognises it. -/
def tileEntryAt (f : Token → Option (BitVec 4)) (n : Nat) : Option TileEntry :=
  (f (tokenAt n)).map (TileEntry.mk (tokenAt n))

theorem tileEntryAt_eq_some_iff {f : Token → Option (BitVec 4)} {n : Nat} {e : TileEntry} :
    tileEntryAt f n = some e ↔ tokenAt n = e.token ∧ f e.token = some e.code := by
  obtain ⟨t, c⟩ := e
  simp only [tileEntryAt, Option.map_eq_some_iff, TileEntry.mk.injEq]
  constructor
  · rintro ⟨_, hf, rfl, rfl⟩
    exact ⟨rfl, hf⟩
  · rintro ⟨rfl, hf⟩
    exact ⟨c, hf, rfl, rfl⟩

/-- The table of `f`: its entries for all tokens, in the order of their keys. -/
def tileTable (f : Token → Option (BitVec 4)) : List TileEntry := (List.range 65536).filterMap (tileEntryAt f)

theorem mem_tileTable_iff {f : Token → Option (BitVec 4)} {e : TileEntry} :
    e ∈ tileTable f ↔ f e.token = some e.code := by
  simp only [tileTable, List.mem_filterMap, List.mem_range, tileEntryAt_eq_some_iff]
  constructor
  · rintro ⟨_, _, _, hf⟩
    exact hf
  · exact fun hf => ⟨tokenKey e.token, tokenKey_lt e.token, tokenAt_tokenKey e.token, hf⟩

theorem tileTable_canonical (f : Token → Option (BitVec 4)) : TileMapCanonical (tileTable f) := by
  refine List.pairwise_filterMap.2 (List.pairwise_lt_range.imp_of_mem fun {i j} hi hj hij x hx y hy => ?_)
  rw [← (tileEntryAt_eq_some_iff.1 hx).1, ← (tileEntryAt_eq_some_iff.1 hy).1,
    tokenKey_tokenAt (List.mem_range.1 hi), tokenKey_tokenAt (List.mem_range.1 hj)]
  exact hij

theorem tileLookup_tileTable (f : Token → Option (BitVec 4)) (t : Token) : tileLookup (tileTable f) t = f t :=
  Option.ext fun c =>
    (mem_iff_tileLookup (tileTable_canonical f) ⟨t, c⟩).symm.trans mem_tileTable_iff

/-- Settles O33: listing the recognised tokens by rising key gives a table of `f`, and its lookup fixes a canonical table. -/
theorem everyTileFunctionHasOneTable : Obligations.EveryTileFunctionHasOneTable := by
  intro f
  refine ⟨tileTable f, ⟨tileTable_canonical f, tileLookup_tileTable f⟩, fun m' hm' h => ?_⟩
  exact tileMap_ext hm' (tileTable_canonical f) fun t => (h t).trans (tileLookup_tileTable f t).symm

/-! ### The pairs of bytes (R67) -/

theorem tokenPairs_getElem? {bs : List Byte} {j : Nat} {t0 t1 : Byte} (h0 : bs[2 * j]? = some t0)
    (h1 : bs[2 * j + 1]? = some t1) : (tokenPairs bs)[j]? = some ⟨t0, t1⟩ := by
  induction bs using tokenPairs.induct generalizing j with
  | case1 a b r ih =>
    cases j with
    | zero => simp_all [tokenPairs]
    | succ j => exact ih h0 h1
  | case2 bs hshort =>
    match bs, hshort with
    | [], _ => simp at h0
    | [_], _ => simp at h1
    | a :: b :: r, hshort => exact absurd rfl (hshort a b r)

namespace Machine

/-! ### TOK and TOKENS (R92 to R94) -/

/-- Every code in 0..9 names an identity, whose code it is (R68). -/
theorem map_tileCode_tileOfCode : ∀ c : BitVec 4, c.toNat ≤ 9 → (tileOfCode c).map tileCode = some c := by decide

theorem tok_of_tileLookup_none {cfg : Config} {t : Token} (h : tileLookup cfg.tileMap t = none) :
    tok cfg t = fallbackTile cfg := by
  rw [tok, h]

theorem tileCode_tok {cfg : Config} {t : Token} {c : BitVec 4} (h : tileLookup cfg.tileMap t = some c)
    (hc : c.toNat ≤ 9) : tileCode (tok cfg t) = c := by
  obtain ⟨x, hx, hcode⟩ := Option.map_eq_some_iff.1 (map_tileCode_tileOfCode c hc)
  simp only [tok, h, hx, Option.getD_some, hcode]

theorem canonical_of_tileMapOk {m : List TileEntry} (h : tileMapOk m = true) : TileMapCanonical m := by
  simp only [tileMapOk, Bool.and_eq_true, decide_eq_true_eq] at h
  obtain ⟨-, hm⟩ := h
  exact hm

/-- R90 (c) under a well-formed configuration. -/
theorem tileLookup_le_nine {cfg : Config} (h : configOk cfg = true) {t : Token} {c : BitVec 4}
    (ht : tileLookup cfg.tileMap t = some c) : c.toNat ≤ 9 := by
  obtain ⟨-, -, -, hmap, -⟩ := (configOk_iff cfg).1 h
  have hm := canonical_of_tileMapOk hmap
  obtain ⟨-, -, hcodes⟩ := (tileMapOk_iff hm).1 hmap
  exact hcodes t c ht

/-- Settles O31: a table code is at most 9, so it is the code of the identity `tok` gives; the code of Unknown is 15. -/
theorem tokenDecodesByTableOrFallback : Obligations.TokenDecodesByTableOrFallback := by
  intro cfg t hok
  refine ⟨fun hnone => ?_, fun c hc => ?_⟩
  · rw [tok_of_tileLookup_none hnone]
    exact ⟨fun hfb => by rw [fallbackTile, hfb], fun hfb => by rw [fallbackTile, hfb]⟩
  · have hle := tileLookup_le_nine hok hc
    have hcode := tileCode_tok hc hle
    refine ⟨hcode, fun hunknown => ?_⟩
    rw [← hcode, hunknown] at hle
    exact absurd hle (by decide)

/-- Settles O32: `tokenPairs` pairs byte `2j` with byte `2j + 1`, and `tok` is mapped over the pairs. -/
theorem tokensDecodesEachPairInOrder : Obligations.TokensDecodesEachPairInOrder := by
  intro cfg b n hlen
  refine ⟨tokens_length cfg hlen.ge, fun j t0 t1 h0 h1 => ?_⟩
  rw [tokens, List.take_of_length_le hlen.le, List.getElem?_map, tokenPairs_getElem? h0 h1, Option.map_some]

end Machine

end Sys2Proof
end

section
/-! PROOFS. The Frame Parser (42_frame_parser.md R96 to R107): a whole frame that reaches a ready IDLE core, what each kind of frame
becomes, and that a SINGLE core keeps nothing of the operations before. -/

namespace Sys2Proof.Machine

/-! ### A whole frame in a ready IDLE core -/

/-- The state an IDLE core dispatches in: only the flag and the operation's own result are touched. -/
theorem IsIdle.atDispatch_eq {s : State} (h : IsIdle s) :
    atDispatch s = { s with err := ErrReg.clear, out := OutputRecord.empty, statusRet := none } := by
  obtain ⟨hkind, hlen, hbuf⟩ := h
  simp [atDispatch, accClear, clearErr, beginOp, hkind, hlen, hbuf]

theorem IsIdle.kindFor_eq {s : State} (h : IsIdle s) (b : Byte) : kindFor s b = classify b := by
  rw [kindFor, h.1]

/-- R87 in IDLE: a chunk that is a whole frame is dispatched as it came. -/
theorem deliver_whole {cfg : Config} {s : State} {k : FrameKind} {b : Byte} {rest : List Byte} (hr : Ready s cfg)
    (hi : IsIdle s) (hb : classify b = some k) (hl : rest.length + 1 = lenOf cfg k) :
    deliver (b :: rest) s = dispatch cfg k (b :: rest) (atDispatch s) := by
  have hkind : kindFor s b = some k := (hi.kindFor_eq b).trans hb
  have hlen : s.accLen + (b :: rest).length = lenOf cfg k := by rw [hi.2.1, Nat.zero_add, List.length_cons, hl]
  rw [deliver_complete hr hi.bufferOk hkind hlen, hi.bufferBytes_eq_nil, List.nil_append]

/-! ### Save and load frames (R105, R106) -/

/-- Settles O21: a save frame is dispatched as it came, and all but its marker is the payload. -/
theorem saveFramePassesItsPayload : Obligations.SaveFramePassesItsPayload := by
  intro cfg s payload hr hi hl
  calc exec (.frameSave payload) s = dispatch cfg .save (marker .save :: payload) (atDispatch s) :=
        deliver_whole hr hi (classify_marker .save) hl
    _ = .next (emit (.saveBlob payload) (atDispatch s)) := rfl
    _ = _ := by rw [hi.atDispatch_eq]; rfl

/-- Settles O22: a load request frame is dispatched as it came, and all but its marker is the payload. -/
theorem loadFramePassesItsPayload : Obligations.LoadFramePassesItsPayload := by
  intro cfg s payload hr hi hl
  calc exec (.frameLoad payload) s = dispatch cfg .load (marker .load :: payload) (atDispatch s) :=
        deliver_whole hr hi (classify_marker .load) hl
    _ = .next (emit (.loadRequest payload) (atDispatch s)) := rfl
    _ = _ := by rw [hi.atDispatch_eq]; rfl

/-! ### The numeric check of a screen (R103) -/

/-- The mask as `ERR_A` holds it (R120). -/
theorem fieldMask_setWidth : ∀ sv dv : Bool,
    (fieldMask sv dv).setWidth 16 = (if sv then 0#16 else 1#16) + (if dv then 0#16 else 2#16) := by decide

theorem errAfter_numericError (s0 s1 s2 d : Byte) :
    errAfter (numericError s0 s1 s2 d) =
      if scoreValid s0 s1 s2 && difficultyValid d then ErrReg.clear
      else
        { valid := true, code := 4#3, b := 0#32
          a := (if scoreValid s0 s1 s2 then 0#16 else 1#16) + (if difficultyValid d then 0#16 else 2#16) } := by
  unfold numericError
  split
  · rfl
  · rw [← fieldMask_setWidth]; rfl

theorem numericError_eq_none {s0 s1 s2 d : Byte} (hs : scoreValid s0 s1 s2 = true) (hd : difficultyValid d = true) :
    numericError s0 s1 s2 d = none := by
  rw [numericError, hs, hd]; rfl

/-- A screen that an IDLE core takes whole changes the record and `err` and nothing else (R103, R104). -/
theorem IsIdle.emit_checkNumeric {s : State} (h : IsIdle s) (e : ScreenEvent) (s0 s1 s2 d : Byte) :
    emit (.screenFrame e) (checkNumeric s0 s1 s2 d (atDispatch s)) =
      { s with
        statusRet := none
        out := { frame := some (.screenFrame e), error := numericError s0 s1 s2 d }
        err := errAfter (numericError s0 s1 s2 d) } := by
  rw [h.atDispatch_eq]
  unfold checkNumeric numericError
  split <;> rfl

/-! ### The screen by its fields (R97 to R104) -/

/-- A SINGLE screen frame in a ready IDLE core, with its trailing fields read from offset 161 on. -/
theorem deliver_screen {cfg : Config} {s : State} {rest : List Byte} {s0 s1 s2 d f : Byte} (hr : Ready s cfg)
    (hrev : cfg.rev = .single) (hi : IsIdle s) (hl : rest.length = 165) (hd : rest.drop 160 = [s0, s1, s2, d, f]) :
    deliver (marker .screen :: rest) s = .next
      { s with
        statusRet := none
        out :=
          { frame := some (.screenFrame (screenEvent (tokens cfg rest 80) s0 s1 s2 d f))
            error := numericError s0 s1 s2 d }
        err := errAfter (numericError s0 s1 s2 d) } := by
  have hlen : rest.length + 1 = lenOf cfg .screen := by rw [hl, lenOf, (screenLength_of_configOk hr.2).1 hrev]
  rw [deliver_whole hr hi (classify_marker .screen) hlen, ← hi.emit_checkNumeric]
  exact dispatch_eq_next.2 (.inl ⟨rfl, hrev, parseScreen_eq_next.2 ⟨s0, s1, s2, d, f, hd, rfl⟩⟩)

/-- Settles O17: the fields of the row are those of `deliver_screen`, and the event and `err` are written out. -/
theorem screenFrameIsDecodedAndEmitted : Obligations.ScreenFrameIsDecodedAndEmitted := by
  intro cfg s ts s0 s1 s2 d l hr hrev hi hts
  have hdrop : (tokenBytes ts ++ [s0, s1, s2, d, l]).drop 160 = [s0, s1, s2, d, l] := List.drop_left' (by simp [hts])
  have hexec := deliver_screen hr hrev hi (by simp [hts]) hdrop
  rw [tokens_tokenBytes_append cfg ts _ hts, errAfter_numericError] at hexec
  refine hexec.trans ?_
  simp only [screenEvent, loseOf, decide_eq_true_eq]
  rfl

/-! ### The screen by its offsets (R98) -/

theorem tokens_getElem? (cfg : Config) {b : List Byte} {n j : Nat} {t0 t1 : Byte} (hj : j < n) (h0 : b[2 * j]? = some t0)
    (h1 : b[2 * j + 1]? = some t1) : (tokens cfg b n)[j]? = some (tok cfg ⟨t0, t1⟩) := by
  rw [← List.getElem?_take_of_lt (show 2 * j < 2 * n by omega)] at h0
  rw [← List.getElem?_take_of_lt (show 2 * j + 1 < 2 * n by omega)] at h1
  rw [tokens, List.getElem?_map, tokenPairs_getElem? h0 h1, Option.map_some]

theorem screenEvent_grid_of_not_lose (g : List TileId) (s0 s1 s2 d : Byte) {f : Byte} (hf : f ≠ 0x31#8) :
    (screenEvent g s0 s1 s2 d f).grid = g := by
  simp [screenEvent, loseOf, hf]

/-- Settles O18: byte `161 + i` of the chunk is field `i` after the tokens, and bytes `1 + 2i` and `2 + 2i` are token `i` of the
bytes after the marker. -/
theorem screenFrameByOffsets : Obligations.ScreenFrameByOffsets := by
  intro cfg s chunk hr hrev hi hlen hfirst
  cases chunk with
  | nil => cases hfirst
  | cons b rest =>
    obtain rfl : b = marker .screen := Option.some.inj hfirst
    have hl : rest.length = 165 := Nat.succ.inj hlen
    have h5 : (rest.drop 160).length = 5 := by rw [List.length_drop, hl]
    match hd : rest.drop 160, h5 with
    | [s0, s1, s2, d, f], _ =>
      have hfield (i : Nat) : (marker .screen :: rest)[161 + i]? = [s0, s1, s2, d, f][i]? := by
        rw [← hd, List.getElem?_drop, show 161 + i = 160 + i + 1 by omega, List.getElem?_cons_succ]
      have hlose : (marker .screen :: rest)[165]? = some f := hfield 4
      refine ⟨_, screenEvent (tokens cfg rest 80) s0 s1 s2 d f, deliver_screen hr hrev hi hl hd, rfl, ?_, ?_, ?_, ?_⟩
      · exact screenEvent_grid_length (tokens_length cfg (by omega)) ..
      · simp [hlose, screenEvent, loseOf]
      · intro hne i t0 t1 hlt h0 h1
        have hf : f ≠ 0x31#8 := fun h => hne (by rw [hlose, h])
        rw [Nat.add_comm 1] at h0
        rw [show 2 + 2 * i = 2 * i + 1 + 1 by omega] at h1
        rw [screenEvent_grid_of_not_lose _ _ _ _ _ hf]
        exact tokens_getElem? cfg hlt h0 h1
      · intro a0 a1 a2 ad h0 h1 h2 h3
        obtain rfl : s0 = a0 := Option.some.inj ((hfield 0).symm.trans h0)
        obtain rfl : s1 = a1 := Option.some.inj ((hfield 1).symm.trans h1)
        obtain rfl : s2 = a2 := Option.some.inj ((hfield 2).symm.trans h2)
        obtain rfl : d = ad := Option.some.inj ((hfield 3).symm.trans h3)
        exact ⟨rfl, rfl, rfl, rfl, fun v0 v1 v2 vd => numericError_eq_none (scoreValid_iff.2 ⟨v0, v1, v2⟩) vd⟩

/-! ### What is emitted is in range (R98 to R100, R102, R113) -/

/-- Only a DELIVER that completes a frame emits one. -/
theorem dispatchEffect_of_emitted {i : Instr} {s t : State} {f : FrameEvent} (h : exec i s = .next t)
    (hf : t.out.frame = some f) : ∃ cfg k, DispatchEffect cfg s t k := by
  rcases exec_cases h with ⟨c, -, -, rfl⟩ | ⟨-, -, rfl⟩ | ⟨-, -, hd⟩
  · cases hf
  · cases hf
  · obtain ⟨cfg, b, rest, -, -, ⟨-, rfl⟩ | ⟨k, -, ⟨-, rfl⟩ | ⟨-, rfl⟩ | ⟨-, frame, -, hd⟩⟩⟩ := deliver_cases hd
    · cases hf
    · cases hf
    · cases hf
    · exact ⟨cfg, k, dispatch_effect hd⟩

/-- What an emitted frame's fields keep to: R98 to R100 and R102 for a screen, R113 for a grid of parts; a payload is free. -/
def FrameInRange : FrameEvent → Prop
  | .screenFrame e =>
      e.grid.length = 80 ∧ (e.scoreValid = true → e.score.toNat ≤ 999) ∧
        (e.difficultyValid = true → e.difficulty.toNat ≤ 9) ∧ (e.lose = true → e.grid = List.replicate 80 .air)
  | .gridFrame g => g.length = 80
  | .saveBlob _ => True
  | .loadRequest _ => True

theorem DispatchEffect.frameInRange {cfg : Config} {s t : State} {k : FrameKind} (h : DispatchEffect cfg s t k)
    {f : FrameEvent} (hf : t.out.frame = some f) : FrameInRange f := by
  cases h with
  | screen e s0 s1 s2 d _ hgrid hscore hsv hdiff hdv hlose hout =>
    rw [hout] at hf
    cases hf
    refine ⟨hgrid, fun hv => ?_, fun hv => ?_, hlose⟩
    · rw [hscore]
      exact (scoreOf_toNat (hsv ▸ hv)).2
    · rw [hdiff]
      exact (difficultyOf_toNat (hdv ▸ hv)).2
  | outOfSequence x _ _ hout => rw [hout] at hf; cases hf
  | lastPart g _ _ hlen hout => rw [hout] at hf; cases hf; exact hlen
  | part g _ _ _ hout => rw [hout] at hf; cases hf
  | save p hout => rw [hout] at hf; cases hf; trivial
  | load p hout => rw [hout] at hf; cases hf; trivial

theorem frameInRange_of_exec {i : Instr} {s t : State} (h : exec i s = .next t) {f : FrameEvent}
    (hf : t.out.frame = some f) : FrameInRange f := by
  obtain ⟨cfg, k, heffect⟩ := dispatchEffect_of_emitted h hf
  exact heffect.frameInRange hf

/-- Settles O23: whatever is emitted comes out of a dispatch, whose screens and grids are in range. -/
theorem emittedFramesAreInRange : Obligations.EmittedFramesAreInRange :=
  fun _ _ _ h => ⟨fun _ he => frameInRange_of_exec h he, fun _ hg => frameInRange_of_exec h hg⟩

/-! ### A SINGLE core keeps nothing of the past (R107) -/

/-- Two states agree in the record, the error register and the Accumulator. -/
structure SameVisible (s t : State) : Prop where
  out     : s.out = t.out
  err     : s.err = t.err
  accKind : s.accKind = t.accKind
  accLen  : s.accLen = t.accLen
  accBuf  : s.accBuf = t.accBuf

theorem atDispatch_sameVisible (s s' : State) : SameVisible (atDispatch s) (atDispatch s') :=
  ⟨rfl, rfl, rfl, rfl, rfl⟩

theorem SameVisible.emit {s s' : State} (h : SameVisible s s') (f : FrameEvent) :
    SameVisible (Machine.emit f s) (Machine.emit f s') :=
  ⟨by simp only [emit_out, h.out], h.err, h.accKind, h.accLen, h.accBuf⟩

theorem SameVisible.raise {s s' : State} (h : SameVisible s s') (e : ErrorEvent) :
    SameVisible (Machine.raise e s) (Machine.raise e s') :=
  ⟨by simp only [raise_out, h.out], rfl, h.accKind, h.accLen, h.accBuf⟩

theorem SameVisible.checkNumeric {s s' : State} (h : SameVisible s s') (s0 s1 s2 d : Byte) :
    SameVisible (Machine.checkNumeric s0 s1 s2 d s) (Machine.checkNumeric s0 s1 s2 d s') := by
  unfold Machine.checkNumeric
  split
  · exact h
  · exact h.raise _

/-- The parsers of SINGLE read the frame alone (R107). -/
theorem dispatch_single_sameVisible {cfg : Config} {k : FrameKind} {frame : List Byte} {s s' t t' : State}
    (hrev : cfg.rev = .single) (hs : SameVisible s s') (h : dispatch cfg k frame s = .next t)
    (h' : dispatch cfg k frame s' = .next t') : SameVisible t t' := by
  cases k with
  | screen =>
    simp only [dispatch, hrev] at h h'
    obtain ⟨s0, s1, s2, d, f, hd, rfl⟩ := parseScreen_eq_next.1 h
    obtain ⟨s0', s1', s2', d', f', hd', rfl⟩ := parseScreen_eq_next.1 h'
    cases hd.symm.trans hd'
    exact (hs.checkNumeric s0 s1 s2 d).emit _
  | save => cases h; cases h'; exact hs.emit _
  | load => cases h; cases h'; exact hs.emit _

/-- The same row of the transition table (R89) applies in both cores: the kind comes from the first byte and the length from the
chunk alone. -/
theorem deliver_idle_sameVisible {cfg : Config} {c : List Byte} {s s' t t' : State} (hr : Ready s cfg) (hr' : Ready s' cfg)
    (hrev : cfg.rev = .single) (hi : IsIdle s) (hi' : IsIdle s') (h : deliver c s = .next t)
    (h' : deliver c s' = .next t') : SameVisible t t' := by
  cases c with
  | nil => cases h
  | cons b rest =>
    have hkind : kindFor s b = classify b := hi.kindFor_eq b
    have hkind' : kindFor s' b = classify b := hi'.kindFor_eq b
    have ⟨hk, hlen, hbuf⟩ := hi
    have ⟨hk', hlen', hbuf'⟩ := hi'
    cases hb : classify b with
    | none =>
      rw [deliver_unknown hr (hkind.trans hb)] at h
      rw [deliver_unknown hr' (hkind'.trans hb)] at h'
      cases h; cases h'
      exact ⟨rfl, rfl, hk.trans hk'.symm, hlen.trans hlen'.symm, hbuf.trans hbuf'.symm⟩
    | some k =>
      rcases Nat.lt_trichotomy (rest.length + 1) (lenOf cfg k) with hl | hl | hl
      · rw [deliver_segment hr (hkind.trans hb) (by simpa [hlen] using hl)] at h
        rw [deliver_segment hr' (hkind'.trans hb) (by simpa [hlen'] using hl)] at h'
        cases h; cases h'
        constructor <;> simp [appended, hlen, hlen', hbuf, hbuf']
      · rw [deliver_whole hr hi hb hl] at h
        rw [deliver_whole hr' hi' hb hl] at h'
        exact dispatch_single_sameVisible hrev (atDispatch_sameVisible s s') h h'
      · rw [deliver_overflow hr (hkind.trans hb) (by simpa [hlen] using hl)] at h
        rw [deliver_overflow hr' (hkind'.trans hb) (by simpa [hlen'] using hl)] at h'
        cases h; cases h'
        constructor <;> simp [hlen, hlen']

/-- Settles O24: the two cores end in states that agree in all that the chunk decides. -/
theorem idleSingleCoreForgetsThePast : Obligations.IdleSingleCoreForgetsThePast := by
  intro cfg c s s' t t' hr hr' hrev hi hi' h h'
  obtain ⟨hout, herr, hkind, hlen, hbuf⟩ := deliver_idle_sameVisible hr hr' hrev hi hi' h h'
  exact ⟨hout, herr, hkind, hlen, hbuf⟩

end Sys2Proof.Machine
end

section
/-! PROOFS. The Part Reassembler (43_part_reassembler.md R109 to R116): the full next state of a part in sequence, of the last
part and of one out of sequence in a ready IDLE core, and that nothing but a completed part or RESET changes the reassembly. -/

namespace Sys2Proof.Machine

/-! ### One part in a ready IDLE core (R111 to R114) -/

theorem partIndexByte_toNat : ∀ p : Fin 4, (partIndexByte p).toNat = 0x30 + p.val := by decide

/-- An index byte is the expected one exactly if it is the digit of the expected index (R73). -/
theorem eq_partIndexByte_iff {x : Byte} {p : Fin 4} : x = partIndexByte p ↔ x.toNat = 0x30 + p.val := by
  rw [← BitVec.toNat_inj, partIndexByte_toNat]

/-- Settles O25: the row is one step of the reassembly, whose index byte is in sequence and not the last. -/
theorem expectedPartIsAppended : Obligations.ExpectedPartIsAppended := by
  intro cfg s filler ts x hr hrev hi hf hts hlt hx
  have hne : s.raNext ≠ 3 := fun h3 => by simp [h3] at hlt
  rw [exec_framePart hr hrev hi hf hts, hi.atDispatch_eq]
  exact partStep_eq_next.2 (.inr (.inr ⟨eq_partIndexByte_iff.2 hx, hne, rfl⟩))

/-- Settles O26: the row is one step of the reassembly, whose 20 cells fill the grid store up. -/
theorem lastPartEmitsTheGrid : Obligations.LastPartEmitsTheGrid := by
  intro cfg s filler ts hr hrev hi hf hts h3 hg
  have hx : 0x33#8 = partIndexByte s.raNext := by rw [h3]; rfl
  have hfull : (s.raGrid ++ ts.map (tok cfg)).length = 80 := by simp [hg, hts]
  rw [exec_framePart hr hrev hi hf hts, hi.atDispatch_eq]
  exact partStep_eq_next.2 (.inr (.inl ⟨hx, h3, hfull, rfl⟩))

/-- Settles O27: the row is one step of the reassembly, whose index byte is not the expected one. -/
theorem outOfSequencePartDropsTheReassembly : Obligations.OutOfSequencePartDropsTheReassembly := by
  intro cfg s filler ts x hr hrev hi hf hts hx
  rw [exec_framePart hr hrev hi hf hts, hi.atDispatch_eq]
  exact partStep_eq_next.2 (.inl ⟨mt eq_partIndexByte_iff.1 hx, rfl⟩)

/-! ### What changes the reassembly (R116) -/

/-- A dispatched frame that is no part leaves the reassembly alone. -/
theorem DispatchEffect.keeps_reassembly {cfg : Config} {s t : State} {k : FrameKind} (h : DispatchEffect cfg s t k)
    (hpart : k = .screen → cfg.rev ≠ .multi) : t.raNext = s.raNext ∧ t.raGrid = s.raGrid := by
  cases h with
  | screen => exact ⟨‹_›, ‹_›⟩
  | outOfSequence _ hrev => exact absurd hrev (hpart rfl)
  | lastPart _ hrev => exact absurd hrev (hpart rfl)
  | part _ hrev => exact absurd hrev (hpart rfl)
  | save _ _ _ hnext hcells => exact ⟨hnext, hcells⟩
  | load _ _ _ hnext hcells => exact ⟨hnext, hcells⟩

/-- A screen-kind frame passes no payload on: that is for save and load frames (R105, R106). -/
theorem DispatchEffect.screen_frame_ne_payload {cfg : Config} {s t : State} (h : DispatchEffect cfg s t .screen)
    (p : List Byte) : t.out.frame ≠ some (.saveBlob p) ∧ t.out.frame ≠ some (.loadRequest p) := by
  cases h with
  | screen _ _ _ _ _ _ _ _ _ _ _ _ hout => simp [hout]
  | outOfSequence _ _ _ hout => simp [hout]
  | lastPart _ _ _ _ hout => simp [hout]
  | part _ _ _ _ hout => simp [hout]

/-- A DELIVER leaves the reassembly alone or has completed a part. -/
theorem deliver_reassembly {cfg : Config} {c : List Byte} {s t : State} (hcfg : s.cfg = some cfg)
    (h : deliver c s = .next t) :
    (t.raNext = s.raNext ∧ t.raGrid = s.raGrid) ∨
      (DispatchEffect cfg s t .screen ∧ cfg.rev = .multi ∧ ∃ b rest, c = b :: rest ∧ kindFor s b = some .screen ∧
        s.accLen + (rest.length + 1) = cfg.lenScreen) := by
  obtain ⟨cfg', b, rest, rfl, ⟨hcfg', -⟩, hcases⟩ := deliver_cases h
  obtain rfl : cfg' = cfg := Option.some.inj (hcfg'.symm.trans hcfg)
  rcases hcases with ⟨-, rfl⟩ | ⟨k, hk, ⟨-, rfl⟩ | ⟨-, rfl⟩ | ⟨hl, frame, -, hd⟩⟩
  · exact .inl ⟨rfl, rfl⟩
  · exact .inl ⟨rfl, rfl⟩
  · exact .inl ⟨rfl, rfl⟩
  · by_cases hpart : k = .screen ∧ cfg'.rev = .multi
    · obtain ⟨rfl, hrev⟩ := hpart
      exact .inr ⟨dispatch_effect hd, hrev, b, rest, rfl, hk, hl⟩
    · exact .inl ((dispatch_effect hd).keeps_reassembly (not_and.1 hpart))

/-- Settles O29: RESET has an empty record, STATUS leaves the reassembly alone, and a DELIVER that changes it has completed a part,
which gives none of the events listed. -/
theorem onlyPartsAndResetChangeTheReassembly : Obligations.OnlyPartsAndResetChangeTheReassembly := by
  intro cfg i s t hcfg h
  rcases exec_cases h with ⟨c, rfl, -, rfl⟩ | ⟨-, -, rfl⟩ | ⟨-, -, hd⟩
  · refine ⟨fun _ => .inl ⟨c, rfl⟩, ?_⟩
    rintro (⟨b, ⟨⟩⟩ | ⟨e, a, ⟨⟩⟩ | ⟨p, ⟨⟩⟩ | ⟨p, ⟨⟩⟩)
  · exact ⟨fun hne => absurd hne (by simp), fun _ => ⟨rfl, rfl⟩⟩
  · rcases deliver_reassembly hcfg hd with hsame | ⟨heffect, hrev, hframe⟩
    · exact ⟨fun hne => absurd hne (by simp [hsame]), fun _ => hsame⟩
    · refine ⟨fun _ => .inr ⟨hrev, hframe⟩, ?_⟩
      obtain ⟨hunknown, hoverflow⟩ := heffect.error_not_accumulator
      rintro (⟨b, hb⟩ | ⟨e, a, ha⟩ | ⟨p, hp⟩ | ⟨p, hp⟩)
      · exact absurd hb (hunknown b)
      · exact absurd ha (hoverflow e a)
      · exact absurd hp (heffect.screen_frame_ne_payload p).1
      · exact absurd hp (heffect.screen_frame_ne_payload p).2

end Sys2Proof.Machine
end

section
/-! PROOFS. Errors and the output record (60_exceptions.md R117 to R132): what raising an error records, what a DELIVER can have
done as far as its result goes, what each error comes with, how long the flag lives, and that no legal state is stuck. -/

namespace Sys2Proof.Machine

/-! ### Raising an error (R120, R125) -/

/-- R120: the expected length is exact up to the 16 bits of `ERR_A`. -/
theorem errA_frameOverflow_toNat {expected : Nat} (h : expected ≤ 65535) (actual : Nat) :
    (errA (.frameOverflow expected actual)).toNat = expected := by
  rw [errA, BitVec.toNat_ofNat]
  omega

/-- R120: the actual length saturates in `ERR_B`. -/
theorem errB_frameOverflow_toNat (expected actual : Nat) :
    (errB (.frameOverflow expected actual)).toNat = min actual (2 ^ 32 - 1) := by
  rw [errB, errBMax, BitVec.toNat_ofNat]
  omega

theorem errA_outOfSequencePart_toNat (expected : Fin 4) (observed : Byte) :
    (errA (.outOfSequencePart expected observed)).toNat = expected.val := by
  rw [errA, BitVec.toNat_ofNat]
  omega

/-- Settles O34: a raise writes the register form of its error, and each detail fits the register it is held in, but for the
actual length, which saturates. -/
theorem raiseRecordsTheError : Obligations.RaiseRecordsTheError := by
  intro e s
  refine ⟨rfl, rfl, rfl, rfl, ?unknown, ?overflow, ?outOfSequence, ?malformed⟩
  case unknown =>
    rintro b rfl
    exact ⟨rfl, BitVec.toNat_setWidth_of_le (by decide), rfl⟩
  case overflow =>
    rintro expected actual rfl
    exact ⟨rfl, fun h => errA_frameOverflow_toNat h actual, errB_frameOverflow_toNat expected actual⟩
  case outOfSequence =>
    rintro expected observed rfl
    exact ⟨rfl, errA_outOfSequencePart_toNat expected observed, BitVec.toNat_setWidth_of_le (by decide)⟩
  case malformed =>
    rintro mask rfl
    exact ⟨rfl, BitVec.toNat_setWidth_of_le (by decide), rfl⟩

/-! ### STATUS and an unknown first byte (R121, R127) -/

/-- Settles O3: under a latched configuration STATUS only empties the record and returns `err`. -/
theorem statusReturnsErrAndChangesNothing : Obligations.StatusReturnsErrAndChangesNothing :=
  fun _ _ hr => withConfig_of_ready hr _

/-- Settles O8: with no frame pending the first byte alone decides that the chunk is dropped. -/
theorem unknownFirstByteDropsTheChunk : Obligations.UnknownFirstByteDropsTheChunk := by
  intro cfg s b rest hr hidle hb
  have hkind : kindFor s b = none := by rw [kindFor, hidle, hb]
  exact ⟨deliver_unknown hr hkind, rfl⟩

/-! ### The result of a DELIVER -/

/-- The rows of the transition table of DELIVER (R89), as far as the operation's result and its error go. -/
inductive DeliverEffect (cfg : Config) (s t : State) : Prop where
  | unknown (b : Byte) (hidle : s.accKind = none) (ht : t = raise (.unknownFrameKind b) (beginOp s))
  | overflow (expected actual : Nat) (ht : t = accClear (raise (.frameOverflow expected actual) (beginOp s)))
  | pending (k : FrameKind) (c : List Byte) (ht : t = appended k c s)
  | dispatched (k : FrameKind) (hshell : SameShell (atDispatch s) t) (heffect : DispatchEffect cfg s t k)

theorem kindFor_eq_none {s : State} {b : Byte} (h : kindFor s b = none) : s.accKind = none := by
  cases hk : s.accKind with
  | none => rfl
  | some k => cases h.symm.trans (kindFor_eq_some.2 (.inl hk))

theorem deliverEffect_of_deliver {c : List Byte} {s t : State} (h : deliver c s = .next t) :
    ∃ cfg, s.cfg = some cfg ∧ DeliverEffect cfg s t := by
  obtain ⟨cfg, b, rest, -, ⟨hcfg, -⟩, hcases⟩ := deliver_cases h
  refine ⟨cfg, hcfg, ?_⟩
  rcases hcases with ⟨hk, ht⟩ | ⟨k, -, ⟨-, ht⟩ | ⟨-, ht⟩ | ⟨-, frame, -, hd⟩⟩
  · exact .unknown b (kindFor_eq_none hk) ht
  · exact .overflow _ _ ht
  · exact .pending k _ ht
  · exact .dispatched k (dispatch_sameShell hd) (dispatch_effect hd)

/-- Only a DELIVER has a record that is not empty (R118). -/
theorem deliverEffect_of_exec {cfg : Config} {i : Instr} {s t : State} (hcfg : s.cfg = some cfg) (h : exec i s = .next t)
    (hout : t.out ≠ OutputRecord.empty) : DeliverEffect cfg s t := by
  rcases exec_cases h with ⟨c, -, -, rfl⟩ | ⟨-, -, rfl⟩ | ⟨-, -, hd⟩
  · exact absurd rfl hout
  · exact absurd rfl hout
  · obtain ⟨cfg', hcfg', heffect⟩ := deliverEffect_of_deliver hd
    obtain rfl : cfg' = cfg := Option.some.inj (hcfg'.symm.trans hcfg)
    exact heffect

theorem out_ne_empty_of_error {t : State} {e : ErrorEvent} (he : t.out.error = some e) : t.out ≠ OutputRecord.empty :=
  fun h => nomatch (congrArg OutputRecord.error h).symm.trans he

theorem out_ne_empty_of_frame {t : State} {f : FrameEvent} (hf : t.out.frame = some f) : t.out ≠ OutputRecord.empty :=
  fun h => nomatch (congrArg OutputRecord.frame h).symm.trans hf

/-! ### The error register after an operation (R130) -/

/-- A dispatch starts from a clear flag, so `err` is the register form of what it raised. -/
theorem DispatchEffect.err_eq {cfg : Config} {s t : State} {k : FrameKind} (h : DispatchEffect cfg s t k) :
    t.err = errAfter t.out.error := by
  cases h with
  | screen => rw [‹t.err = _›, ‹t.out = _›]
  | outOfSequence => rw [‹t.err = _›, ‹t.out = _›]; rfl
  | lastPart => rw [‹t.err = _›, ‹t.out = _›]; rfl
  | part => rw [‹t.err = _›, ‹t.out = _›]; rfl
  | save => rw [‹t.err = _›, ‹t.out = _›]; rfl
  | load => rw [‹t.err = _›, ‹t.out = _›]; rfl

theorem DeliverEffect.err_eq {cfg : Config} {s t : State} (h : DeliverEffect cfg s t) : t.err = errAfter t.out.error := by
  cases h with
  | unknown b _ ht => rw [ht]; rfl
  | overflow x a ht => rw [ht]; rfl
  | pending k c ht => rw [ht]; rfl
  | dispatched k _ heffect => exact heffect.err_eq

/-- What a DELIVER leaves alone: the queue, and `statusRet`, which is STATUS's alone. -/
theorem DeliverEffect.interface {cfg : Config} {s t : State} (h : DeliverEffect cfg s t) :
    t.statusRet = none ∧ t.inputs = s.inputs := by
  cases h with
  | unknown b _ ht => rw [ht]; exact ⟨rfl, rfl⟩
  | overflow x a ht => rw [ht]; exact ⟨rfl, rfl⟩
  | pending k c ht => rw [ht]; exact ⟨rfl, rfl⟩
  | dispatched k hshell _ => exact ⟨hshell.statusRet, hshell.inputs⟩

/-- Settles O37: RESET clears the flag, STATUS returns it, and a DELIVER leaves the register form of the error it raised. -/
theorem errorFlagLivesUntilAcceptedChunkRaiseOrReset : Obligations.ErrorFlagLivesUntilAcceptedChunkRaiseOrReset := by
  intro i s t h
  rcases exec_cases h with ⟨c, rfl, -, rfl⟩ | ⟨rfl, -, rfl⟩ | ⟨hstatus, -, hd⟩
  · exact ⟨(nomatch ·), fun _ => ⟨fun _ => rfl, fun _ => (nomatch ·), rfl⟩⟩
  · exact ⟨fun _ => ⟨rfl, rfl⟩, fun hi => absurd rfl hi⟩
  · obtain ⟨cfg, -, heffect⟩ := deliverEffect_of_deliver hd
    have herr := heffect.err_eq
    refine ⟨fun hi => absurd hi hstatus, fun _ => ⟨fun ho => ?_, fun e he => ?_, heffect.interface.1⟩⟩
    · rw [herr, ho]; rfl
    · rw [herr, he]; rfl

/-! ### What each error comes with (R118, R129) -/

/-- The changes an error comes with (R129), the frame beside it (R118), and the revision that can raise it (R123, R124). -/
def ErrorEffect (cfg : Config) (s t : State) : ErrorEvent → Prop
  | .unknownFrameKind _ =>
      s.accKind = none ∧ t.accKind = none ∧ t.accLen = s.accLen ∧ t.accBuf = s.accBuf ∧
        t.raNext = s.raNext ∧ t.raGrid = s.raGrid ∧ t.out.frame = none
  | .frameOverflow _ _ =>
      t.accKind = none ∧ t.accLen = 0 ∧ t.raNext = s.raNext ∧ t.raGrid = s.raGrid ∧ t.out.frame = none
  | .outOfSequencePart _ _ =>
      cfg.rev = .multi ∧ t.accKind = none ∧ t.accLen = 0 ∧ t.raNext = 0 ∧ t.raGrid = [] ∧ t.out.frame = none
  | .malformedNumericField _ =>
      cfg.rev = .single ∧ t.accKind = none ∧ t.accLen = 0 ∧ t.raNext = s.raNext ∧ t.raGrid = s.raGrid ∧
        ∃ ev, t.out.frame = some (.screenFrame ev)

theorem numericError_eq_some {s0 s1 s2 d : Byte} {e : ErrorEvent} (h : numericError s0 s1 s2 d = some e) :
    ∃ m, e = .malformedNumericField m := by
  unfold numericError at h
  split at h
  · cases h
  · exact ⟨_, (Option.some.inj h).symm⟩

/-- A dispatch raises one of the parser's and the reassembler's own errors (R123, R124), with the Accumulator already IDLE. -/
theorem DispatchEffect.errorEffect {cfg : Config} {s t : State} {k : FrameKind} (h : DispatchEffect cfg s t k)
    (hkind : t.accKind = none) (hlen : t.accLen = 0) {e : ErrorEvent} (he : t.out.error = some e) :
    ErrorEffect cfg s t e := by
  cases h with
  | screen ev s0 s1 s2 d hrev _ _ _ _ _ _ hout _ hnext hcells =>
    rw [hout] at he
    obtain ⟨m, rfl⟩ := numericError_eq_some he
    exact ⟨hrev, hkind, hlen, hnext, hcells, ev, by rw [hout]⟩
  | outOfSequence x hrev _ hout _ hnext hcells =>
    rw [hout] at he
    cases he
    exact ⟨hrev, hkind, hlen, hnext, hcells, by rw [hout]⟩
  | lastPart _ _ _ _ hout => rw [hout] at he; cases he
  | part _ _ _ _ hout => rw [hout] at he; cases he
  | save _ hout => rw [hout] at he; cases he
  | load _ hout => rw [hout] at he; cases he

theorem DeliverEffect.errorEffect {cfg : Config} {s t : State} (h : DeliverEffect cfg s t) {e : ErrorEvent}
    (he : t.out.error = some e) : ErrorEffect cfg s t e := by
  cases h with
  | unknown b hidle ht =>
    subst ht; cases he
    exact ⟨hidle, hidle, rfl, rfl, rfl, rfl, rfl⟩
  | overflow x a ht =>
    subst ht; cases he
    exact ⟨rfl, rfl, rfl, rfl, rfl⟩
  | pending k c ht => subst ht; cases he
  | dispatched k hshell heffect => exact heffect.errorEffect hshell.accKind hshell.accLen he

theorem exec_errorEffect {cfg : Config} {i : Instr} {s t : State} (hcfg : s.cfg = some cfg) (h : exec i s = .next t)
    {e : ErrorEvent} (he : t.out.error = some e) : ErrorEffect cfg s t e :=
  (deliverEffect_of_exec hcfg h (out_ne_empty_of_error he)).errorEffect he

/-- Settles O36: `err` is the register form of the error, and the rest is what the error comes with; in a legal state an unknown
first byte finds the Accumulator empty. -/
theorem errorChangesExactlyItsState : Obligations.ErrorChangesExactlyItsState := by
  intro cfg i s t e hs hcfg h he
  have heffect := exec_errorEffect hcfg h he
  refine ⟨?register, ?unknown, ?overflow, ?outOfSequence, ?malformed⟩
  case register =>
    rw [(deliverEffect_of_exec hcfg h (out_ne_empty_of_error he)).err_eq, he]; rfl
  case unknown =>
    rintro b rfl
    obtain ⟨hidle, hkind, hlen, hrest⟩ := heffect
    have hempty := IsIdle.of_legalUnder ((legal_iff_legalUnder hcfg).1 hs) hidle
    exact ⟨hidle, hkind, hlen.trans hempty.2.1, hrest⟩
  case overflow =>
    rintro x a rfl
    exact heffect
  case outOfSequence =>
    rintro p x rfl
    exact heffect.2
  case malformed =>
    rintro m rfl
    exact heffect.2

/-! ### The combinations of the record (R108, R118) -/

/-- The revision whose frames an event belongs to (R108); save and load frames belong to both. -/
def FrameEvent.belongsTo (r : Rev) : FrameEvent → Prop
  | .screenFrame _ => r = .single
  | .gridFrame _ => r = .multi
  | .saveBlob _ => True
  | .loadRequest _ => True

theorem DispatchEffect.frame_belongsTo {cfg : Config} {s t : State} {k : FrameKind} (h : DispatchEffect cfg s t k)
    {f : FrameEvent} (hf : t.out.frame = some f) : f.belongsTo cfg.rev := by
  cases h with
  | screen _ _ _ _ _ hrev _ _ _ _ _ _ hout => rw [hout] at hf; cases hf; exact hrev
  | outOfSequence _ _ _ hout => rw [hout] at hf; cases hf
  | lastPart _ hrev _ _ hout => rw [hout] at hf; cases hf; exact hrev
  | part _ _ _ _ hout => rw [hout] at hf; cases hf
  | save _ hout => rw [hout] at hf; cases hf; trivial
  | load _ hout => rw [hout] at hf; cases hf; trivial

theorem exec_frame_belongsTo {cfg : Config} {i : Instr} {s t : State} (hcfg : s.cfg = some cfg) (h : exec i s = .next t)
    {f : FrameEvent} (hf : t.out.frame = some f) : f.belongsTo cfg.rev := by
  cases deliverEffect_of_exec hcfg h (out_ne_empty_of_frame hf) with
  | unknown b _ ht => subst ht; cases hf
  | overflow x a ht => subst ht; cases hf
  | pending k c ht => subst ht; cases hf
  | dispatched k _ heffect => exact heffect.frame_belongsTo hf

theorem exec_hostOp_out {i : Instr} {s t : State} (h : exec i s = .next t) (hi : i = .status ∨ ∃ c, i = .reset c) :
    t.out = OutputRecord.empty := by
  rcases exec_cases h with ⟨c, -, -, rfl⟩ | ⟨-, -, rfl⟩ | ⟨hstatus, hreset, -⟩
  · rfl
  · rfl
  · obtain hi | ⟨c, hi⟩ := hi
    · exact absurd hi hstatus
    · exact absurd hi (hreset c)

/-- Settles O35: RESET and STATUS return the empty record, a frame belongs to the revision, and the frame beside an error is part of
what the error comes with. -/
theorem outputRecordCombinations : Obligations.OutputRecordCombinations := by
  intro cfg i s t hcfg h
  refine ⟨exec_hostOp_out h, fun e he => exec_frame_belongsTo hcfg h he, fun g hg => exec_frame_belongsTo hcfg h hg,
    fun b hb => ?unknown, fun e a ha => ?overflow, fun p x hx => ?outOfSequence, fun m hm => ?malformed⟩
  case unknown =>
    obtain ⟨-, -, -, -, -, -, hframe⟩ := exec_errorEffect hcfg h hb
    exact hframe
  case overflow =>
    obtain ⟨-, -, -, -, hframe⟩ := exec_errorEffect hcfg h ha
    exact hframe
  case outOfSequence =>
    obtain ⟨hrev, -, -, -, -, hframe⟩ := exec_errorEffect hcfg h hx
    exact ⟨hframe, hrev⟩
  case malformed =>
    obtain ⟨hrev, -, -, -, -, hframe⟩ := exec_errorEffect hcfg h hm
    exact ⟨hframe, hrev⟩

/-! ### No legal state is stuck (R128) -/

/-- A chunk is dropped, overflows, is appended, or completes a frame, which is then as long as its layout: each row answers. -/
theorem deliver_total {cfg : Config} {s : State} (hcfg : s.cfg = some cfg) (hs : LegalUnder cfg s) {c : List Byte}
    (hne : c ≠ []) : ∃ t, deliver c s = .next t := by
  obtain ⟨b, rest, rfl⟩ := List.exists_cons_of_ne_nil hne
  obtain ⟨hc, hbuf, -, hra, -⟩ := hs
  have hr : Ready s cfg := ⟨hcfg, hc⟩
  cases hk : kindFor s b with
  | none => exact ⟨_, deliver_unknown hr hk⟩
  | some k =>
    rcases Nat.lt_trichotomy (s.accLen + (b :: rest).length) (lenOf cfg k) with hl | hl | hl
    · exact ⟨_, deliver_segment hr hk hl⟩
    · rw [deliver_complete hr hbuf hk hl]
      exact dispatch_total hc (by rw [List.length_append, hbuf.length, hl]) hra.1
    · exact ⟨_, deliver_overflow hr hk hl⟩

/-- No meaning sees the queue of operations (R155). -/
theorem exec_keeps_inputs {i : Instr} {s t : State} (h : exec i s = .next t) : t.inputs = s.inputs := by
  rcases exec_cases h with ⟨c, -, -, rfl⟩ | ⟨-, -, rfl⟩ | ⟨-, -, hd⟩
  · rfl
  · rfl
  · obtain ⟨cfg, -, heffect⟩ := deliverEffect_of_deliver hd
    exact heffect.interface.2

/-- An instruction that answers in a legal state answers a legal one, with the queue untouched. -/
theorem exec_answers_legal {i : Instr} {s : State} (hs : Legal s) (h : ∃ t, exec i s = .next t) :
    ∃ t, exec i s = .next t ∧ Legal t ∧ t.inputs = s.inputs := by
  obtain ⟨t, ht⟩ := h
  exact ⟨t, ht, exec_keeps_legal hs ht, exec_keeps_inputs ht⟩

/-- Settles O12: in a legal constructed state every operation answers, and whatever answers is legal. -/
theorem noErrorIsFatal : Obligations.NoErrorIsFatal := by
  intro cfg s hs hcfg
  have hlegal := (legal_iff_legalUnder hcfg).1 hs
  refine ⟨fun c hne => ?deliver, fun i hne => ?row, ?status, fun c hc => ?reset⟩
  case deliver => exact exec_answers_legal hs (deliver_total hcfg hlegal hne)
  case row =>
    refine exec_answers_legal hs ?_
    rw [exec_chunk hne]
    exact deliver_total hcfg hlegal hne
  case status => exact exec_answers_legal hs ⟨_, withConfig_of_ready ⟨hcfg, hlegal.config⟩ _⟩
  case reset => exact exec_answers_legal hs ⟨_, if_pos hc⟩

/-! ### No legal state faults (R137) -/

theorem withConfig_unconstructed {s : State} (hcfg : s.cfg = none) (k : Config → Result State) :
    withConfig s k = .refused .beforeReset := by
  rw [withConfig, hcfg]

/-- A DELIVER in a legal state answers, or is refused: an empty chunk, or no RESET yet. -/
theorem deliver_ne_fault {s : State} (hs : Legal s) (c : List Byte) (f : Fault) : deliver c s ≠ .fault f := by
  intro h
  cases c with
  | nil => cases h
  | cons b rest =>
    cases hcfg : s.cfg with
    | none => cases h.symm.trans (withConfig_unconstructed hcfg _)
    | some cfg =>
      obtain ⟨t, ht⟩ := deliver_total hcfg ((legal_iff_legalUnder hcfg).1 hs) (List.cons_ne_nil b rest)
      cases h.symm.trans ht

theorem execReset_ne_fault (c : Config) (s : State) (f : Fault) : execReset c s ≠ .fault f := by
  unfold execReset
  split <;> simp

theorem execStatus_ne_fault (s : State) (f : Fault) : execStatus s ≠ .fault f := by
  unfold execStatus withConfig
  split
  · simp
  · split <;> simp

theorem exec_ne_fault {s : State} (hs : Legal s) (i : Instr) (f : Fault) : exec i s ≠ .fault f := by
  cases i with
  | reset c => exact execReset_ne_fault c s f
  | status => exact execStatus_ne_fault s f
  | deliver c => exact deliver_ne_fault hs c f
  | frameScreen | framePart | frameSave | frameLoad | frameUnknown =>
    rw [exec_chunk]
    · exact deliver_ne_fault hs _ f
    · exact List.cons_ne_nil _ _

theorem fetchDecode_ne_fault (cfg : Config) (r : Request) (s : State) (f : Fault) : fetchDecode cfg r s ≠ .fault f := by
  unfold fetchDecode
  split <;> simp

theorem fetchUnder_ne_fault (under : Config) (r : Request) (s : State) (f : Fault) : fetchUnder under r s ≠ .fault f := by
  unfold fetchUnder
  split
  · simp
  · split
    · exact fetchDecode_ne_fault _ r s f
    · simp

/-- A fetch has one fault, the empty queue (R155). -/
theorem fetch_fault {s : State} {f : Fault} (h : fetch s = .fault f) : f = .runEnded ∧ s.inputs = [] := by
  unfold fetch at h
  split at h
  · next hin => cases h; exact ⟨rfl, hin⟩
  · split at h
    · exact absurd h (fetchDecode_ne_fault _ _ s f)
    · exact absurd h (fetchUnder_ne_fault _ _ s f)
    · exact absurd h (fetchUnder_ne_fault _ _ s f)

/-- Settles O44: a fault of a step is the fetch's, since no instruction faults in a legal state. -/
theorem legalStatesFaultOnlyAtTheEnd : Obligations.LegalStatesFaultOnlyAtTheEnd := by
  intro s f hs h
  unfold step at h
  split at h
  · next i s1 hfetch =>
    obtain rfl := fetch_takes hfetch
    exact absurd h (exec_ne_fault (takeInput_legal hs) i f)
  · next f' hfetch =>
    cases h
    exact fetch_fault hfetch
  · cases h

end Sys2Proof.Machine
end

section
/-! PROOFS. RESET and the step (70_reset_and_hazards.md R140, R143, R156): the reset values, the instruction a step runs, and the
four refusals of a legal state. -/

namespace Sys2Proof.Machine

/-! ### The instruction a step runs (R156) -/

theorem withInputs_eq_self {s : State} {rs : List Request} (hin : s.inputs = rs) : withInputs rs s = s := by
  rw [← hin]
  rfl

theorem takeInput_eq_withInputs {s : State} {r : Request} {rest : List Request} (hin : s.inputs = r :: rest) :
    takeInput s = withInputs rest s := by
  rw [takeInput, hin]
  rfl

theorem step_runEnded {s : State} (hin : s.inputs = []) : step s = .fault .runEnded := by
  rw [step, fetch, hin]

/-- A RESET is fetched in every state: no latched configuration is asked for. -/
theorem step_reset {c : Config} {s : State} {rest : List Request} (hin : s.inputs = .reset c :: rest) :
    step s = exec (.reset c) (withInputs rest s) := by
  rw [← takeInput_eq_withInputs hin, step, fetch, hin]
  rfl

theorem fetchUnder_latched {cfg : Config} {s : State} (hcfg : s.cfg = some cfg) (r : Request) :
    fetchUnder cfg r s = fetchDecode cfg r s := by
  simp [fetchUnder, hcfg]

theorem step_status {cfg : Config} {s : State} {rest : List Request} (hcfg : s.cfg = some cfg)
    (hin : s.inputs = .status cfg :: rest) : step s = exec .status (withInputs rest s) := by
  have hfetch : fetch s = fetchDecode cfg (.status cfg) s := by
    rw [fetch, hin]
    exact fetchUnder_latched hcfg _
  rw [step, hfetch, ← takeInput_eq_withInputs hin]
  rfl

/-- Settles O41: `step_decoded` for a DELIVER; a STATUS and a RESET decode to themselves. -/
theorem stepRunsTheDecodedInstruction : Obligations.StepRunsTheDecodedInstruction := by
  intro s rest
  refine ⟨fun cfg c i hcfg hin hi => ?_, fun cfg hcfg hin => step_status hcfg hin, fun cfg hin => step_reset hin⟩
  have hstep := step_decoded hcfg hi rest
  rwa [withInputs_eq_self hin] at hstep

/-! ### RESET (R140) and what comes before it (R143) -/

/-- Settles O1: RESET checks its configuration and then writes every field. -/
theorem resetLeavesTheResetValues : Obligations.ResetLeavesTheResetValues := by
  intro cfg s
  constructor
  · intro hc
    exact if_pos hc
  · intro hc
    exact if_neg (ne_true_of_eq_false hc)

theorem fetchUnder_beforeReset {s : State} (hcfg : s.cfg = none) (under : Config) (r : Request) :
    fetchUnder under r s = .refused .beforeReset := by
  rw [fetchUnder, hcfg]

/-- Settles O5: a fetch refuses a DELIVER or STATUS before it decodes it, their meanings ask for the latched configuration, and a
RESET does neither. -/
theorem operationsBeforeResetAreRefused : Obligations.OperationsBeforeResetAreRefused := by
  intro s cfg rest hcfg
  refine ⟨?deliverStep, ?statusStep, ?deliver, ?status, ?resetStep⟩
  case deliverStep =>
    intro c hin
    simp only [step, fetch, hin, fetchUnder_beforeReset hcfg]
  case statusStep =>
    intro hin
    simp only [step, fetch, hin, fetchUnder_beforeReset hcfg]
  case deliver => exact fun b c => withConfig_unconstructed hcfg _
  case status => exact withConfig_unconstructed hcfg _
  case resetStep =>
    intro hin hc
    exact ⟨_, (step_reset hin).trans ((resetLeavesTheResetValues cfg _).1 hc), rfl⟩

/-! ### The refusals of a legal state (R137, R156) -/

/-- An operation issued under the latched configuration of a legal state is refused only if it is the DELIVER of an empty chunk:
any other answers. -/
theorem step_latched_answers {cfg : Config} {s : State} {rest : List Request} (hs : Legal s) (hcfg : s.cfg = some cfg)
    (hin : (∃ c, c ≠ [] ∧ s.inputs = .deliver cfg c :: rest) ∨ s.inputs = .status cfg :: rest) :
    ∃ t, step s = .next t := by
  have hr : Ready s cfg := ⟨hcfg, ((legal_iff_legalUnder hcfg).1 hs).config⟩
  rcases hin with ⟨c, hne, hin⟩ | hin
  · have hstep := step_deliver hr hne rest
    rw [withInputs_eq_self hin, ← takeInput_eq_withInputs hin] at hstep
    rw [hstep]
    have hcfg' : (takeInput s).cfg = some cfg := hcfg
    exact deliver_total hcfg' ((legal_iff_legalUnder hcfg').1 (takeInput_legal hs)) hne
  · exact ⟨_, (step_status hcfg hin).trans (withConfig_of_ready hr _)⟩

/-- Why a legal state refuses a DELIVER or STATUS. -/
theorem refusal_of_issuedUnder {under : Config} {s : State} {r : Refusal} {rest : List Request} (hs : Legal s)
    (h : step s = .refused r)
    (hin : (∃ b, s.inputs = .deliver under b :: rest) ∨ s.inputs = .status under :: rest) :
    (r = .beforeReset ∧ s.cfg = none) ∨
      (r = .configChanged ∧ ∃ cfg, s.cfg = some cfg ∧ under ≠ cfg) ∨
      (r = .emptyChunk ∧ s.cfg = some under ∧ s.inputs = .deliver under [] :: rest) := by
  have refusal_eq {q : Refusal} (hq : step s = .refused q) : r = q := Host.Outcome.refused.inj (h.symm.trans hq)
  cases hcfg : s.cfg with
  | none =>
    obtain ⟨hdeliver, hstatus, -⟩ := operationsBeforeResetAreRefused s under rest hcfg
    exact .inl ⟨refusal_eq (hin.elim (fun ⟨b, hin⟩ => hdeliver b hin) hstatus), rfl⟩
  | some cfg =>
    rcases eq_or_ne under cfg with rfl | hne
    · by_cases hempty : s.inputs = .deliver under [] :: rest
      · exact .inr (.inr ⟨refusal_eq (emptyChunkIsRefused.2 under rest s hcfg hempty), rfl, hempty⟩)
      · obtain ⟨t, ht⟩ := step_latched_answers hs hcfg
          (hin.imp_left fun ⟨b, hin⟩ => ⟨b, fun hb => hempty (hb ▸ hin), hin⟩)
        cases h.symm.trans ht
    · have hchanged {c : List Byte} := configurationChangesOnlyByReset.2 cfg under c rest s hcfg hne
      refine .inr (.inl ⟨refusal_eq ?_, cfg, rfl, hne⟩)
      rcases hin with ⟨b, hin⟩ | hin
      · exact hchanged (.inl hin)
      · exact hchanged (c := []) (.inr hin)

/-- A RESET is refused for its configuration alone. -/
theorem step_reset_refused_iff {c : Config} {s : State} {r : Refusal} {rest : List Request}
    (hin : s.inputs = .reset c :: rest) :
    step s = .refused r ↔ r = .illFormedConfig ∧ configOk c = false := by
  obtain ⟨hok, hill⟩ := resetLeavesTheResetValues c (withInputs rest s)
  rw [step_reset hin]
  cases hc : configOk c with
  | true => simp [hok hc]
  | false => simp [hill hc, eq_comm]

/-- Settles O45: each operation's own lemma says why it is refused, and the refusals of O5, O6, O4 and O1 are the converse. -/
theorem refusalsAreExactlyThoseOfTheSpec : Obligations.RefusalsAreExactlyThoseOfTheSpec := by
  intro s r hs
  constructor
  · intro h
    cases hin : s.inputs with
    | nil => cases h.symm.trans (step_runEnded hin)
    | cons op rest =>
      cases op with
      | reset c =>
        obtain ⟨hr, hc⟩ := (step_reset_refused_iff hin).1 h
        exact .inr (.inr (.inr ⟨hr, c, rest, rfl, hc⟩))
      | deliver under b =>
        rcases refusal_of_issuedUnder hs h (.inl ⟨b, hin⟩) with ⟨hr, hcfg⟩ | ⟨hr, cfg, hcfg, hne⟩ | ⟨hr, hcfg, hempty⟩
        · exact .inl ⟨hr, hcfg, .inl ⟨under, b, rest, rfl⟩⟩
        · exact .inr (.inl ⟨hr, cfg, under, rest, hcfg, hne, .inl ⟨b, rfl⟩⟩)
        · exact .inr (.inr (.inl ⟨hr, under, rest, hcfg, hin.symm.trans hempty⟩))
      | status under =>
        rcases refusal_of_issuedUnder hs h (.inr hin) with ⟨hr, hcfg⟩ | ⟨hr, cfg, hcfg, hne⟩ | ⟨-, -, hempty⟩
        · exact .inl ⟨hr, hcfg, .inr ⟨under, rest, rfl⟩⟩
        · exact .inr (.inl ⟨hr, cfg, under, rest, hcfg, hne, .inr rfl⟩)
        · cases hin.symm.trans hempty
  · rintro (⟨rfl, hcfg, ⟨c, b, rest, hin⟩ | ⟨c, rest, hin⟩⟩ | ⟨rfl, cfg, other, rest, hcfg, hne, ⟨b, hin⟩ | hin⟩ |
      ⟨rfl, cfg, rest, hcfg, hin⟩ | ⟨rfl, c, rest, hin, hc⟩)
    · exact (operationsBeforeResetAreRefused s c rest hcfg).1 b hin
    · exact (operationsBeforeResetAreRefused s c rest hcfg).2.1 hin
    · exact configurationChangesOnlyByReset.2 cfg other b rest s hcfg hne (.inl hin)
    · exact configurationChangesOnlyByReset.2 cfg other [] rest s hcfg hne (.inr hin)
    · exact emptyChunkIsRefused.2 cfg rest s hcfg hin
    · exact (step_reset_refused_iff hin).2 ⟨rfl, hc⟩

end Sys2Proof.Machine
end
